-- ==== Sys2Proof/Word.lean ====
section
/-! DEFINITION. The words of the block: characters, strings, bit strings (spec/00_scope.md rules R10, R11;
spec/20_memory.md rules R37, R39). The block has no machine word, no register and no memory
(spec/10_state.md rules R20, R21, R28), so nothing here is an address. -/

namespace Sys2Proof

/-- A string: a finite list of characters, index 0 the leftmost, no length limit (R10, R22, R37). A character is its
`CHAR_W`-bit code, read as ASCII (R10, R39), kept as the number it is; that it fits `CHAR_W` bits is part of well-formedness
(`strFits`). -/
abbrev Str := List Nat

/-- A bit string as it travels: in a request most significant bit first (R57, R58), in a response likewise by the
model's choice (log entry 22). -/
abbrev Bits := List Bool

/-- The characters of a written text as their ASCII codes (R10: a quoted character stands for its code). -/
def ascii (text : String) : Str := text.toList.map Char.toNat

/-- The ASCII codes 0x61 to 0x7A, `'a'` to `'z'` (R11). -/
def isLowerLetter (c : Nat) : Bool := 0x61 ≤ c && c ≤ 0x7A

/-- The ASCII codes 0x41 to 0x5A, `'A'` to `'Z'` (R11). -/
def isUpperLetter (c : Nat) : Bool := 0x41 ≤ c && c ≤ 0x5A

/-- The ten ASCII digits, index = value (R8 b). -/
def asciiDigits : Str := ascii "0123456789"

end Sys2Proof
end

