-- ==== Sys2Proof/Config.lean ====
section
/-! DEFINITION. The configuration record `CFG` (spec/00_scope.md rule R7). Its open host functions `PARSEINT`,
`STRHASH` and `PLACEHOLDER` are arguments of the host procedures that use them (Machine/FrontEnd.lean; log entry 8). -/

namespace Sys2Proof

/-- The widths among R7's parameters, in bits. -/
structure Widths where
  /-- `CHAR_W`: a character on a string port. -/
  charW  : Nat
  /-- `VAL_W`: an unsigned value operand or result. -/
  valW   : Nat
  /-- `SEQ_W`: the signed `sequence` operand. -/
  seqW   : Nat
  /-- `WIDTH_W`: the `width` operand of `ENC`. -/
  widthW : Nat
  /-- `Y_W`, `M_W`, `D_W`: the year, month and day operands of `COMPOSE`. -/
  yW     : Nat
  mW     : Nat
  dW     : Nat
deriving DecidableEq, Repr

/-- R7's defaults, the widths at which R22 and R57 to R59 write their tables out. -/
def Widths.default : Widths where
  charW  := 8
  valW   := 64
  seqW   := 64
  widthW := 5
  yW     := 16
  mW     := 4
  dW     := 5

/-- `CFG`, the constant record of everything that differs between builds (R7): fixed before the first request,
written by no operation. A statement speaks of every configuration; one that needs a default names
`Config.default`. -/
structure Config where
  /-- `ALPHABET`: the symbol of value `v` at index `v` (R47). -/
  alphabet   : Str
  /-- `SEPARATORS`: a set of characters (R49). -/
  separators : Str
  /-- `CONFUSE`: a partial map from character to character (R49). -/
  confuse    : List (Nat × Nat)
  /-- `CRC_POLY`: the coefficients of x^9 to x^0, x^10 implied (R85). -/
  crcPoly    : BitVec 10
  /-- `CRC_INIT` (R86). -/
  crcInit    : BitVec 10
  /-- `CRC_XOROUT` (R86). -/
  crcXorOut  : BitVec 10
  /-- `CHAR_W` to `D_W`: any widths (log entry 5 says how R57 to R59 read at other widths than the defaults). -/
  widths     : Widths
deriving DecidableEq, Repr

/-- The defaults of R7's table (R48, R49, R87). The spec marks them as its own choice, not the source's: a
statement that rests on them says so (log entry 2). -/
def Config.default : Config where
  alphabet   := ascii "0123456789ABCDEFGHJKMNPQRSTVWXYZ"
  separators := [0x20, 0x2D]
  confuse    := [(0x4F, 0x30), (0x49, 0x31), (0x4C, 0x31)]
  crcPoly    := 0x233
  crcInit    := 0x000
  crcXorOut  := 0x000
  widths     := Widths.default

/-- The three identifier fields that the host names by strings (R104, R120). -/
inductive IdField
  | eventID
  | categoryID
  | seatID
deriving DecidableEq, Repr

/-- `GENSEQ_DRAW` (R7, R106): the value behind the `n`-th call of `generateSequence`. A free value: no body, a
fresh one for each call through the counter `State.draws` (log entry 9). -/
opaque genSeqDraw : Nat → Nat

end Sys2Proof
end

