-- ==== Sys2Proof/Syntax.lean ====
section
/-! DEFINITION. The sixteen operations with their operands, and the request and response records
(spec/30_encoding.md rules R57 to R61; spec/10_state.md rules R22, R23). -/

namespace Sys2Proof

/-- The operation named by a request's `OP` field: the sixteen rows of R60. -/
inductive Op
  | enc
  | encc
  | dec
  | norm
  | isvc
  | crc
  | append
  | extract
  | strip
  | validate
  | compose
  | decode
  | format
  | rmdash
  | isvf
  | split
deriving DecidableEq, Repr

/-- The four request formats (R58). -/
inductive Format
  /-- `N`: `VAL`, 64 bits by default. -/
  | n
  /-- `C`: `CH`, 8 bits by default. -/
  | c
  /-- `S`: `STR`, 8 bits a character by default, ended by an out-of-band mark. -/
  | s
  /-- `G`: the operands of `COMPOSE`, 281 bits by default. -/
  | g
deriving DecidableEq, Repr

/-- The five result kinds (R59). -/
inductive ResultKind
  | s
  | v
  | b
  | r
  | g
deriving DecidableEq, Repr

/-- One operation with the operands its format lists (R22, R58, R60), one constructor per row of the opcode
table. Operands are the numbers and strings themselves (R10, R78); that they fit the widths of `CFG` is
`Instr.wellFormed`, and the decoder reads no others. -/
inductive Instr
  /-- `ENC value, width` (R71). -/
  | enc (width : Nat) (value : Nat)
  /-- `ENCC value` (R72). -/
  | encc (value : Nat)
  /-- `DEC s` (R74). -/
  | dec (str : Str)
  /-- `NORM s` (R73). -/
  | norm (str : Str)
  /-- `ISVC c` (R75). -/
  | isvc (ch : Nat)
  /-- `CRC data` (R88). -/
  | crc (str : Str)
  /-- `APPEND data` (R89). -/
  | append (str : Str)
  /-- `EXTRACT code` (R90). -/
  | extract (str : Str)
  /-- `STRIP code` (R91). -/
  | strip (str : Str)
  /-- `VALIDATE code` (R92). -/
  | validate (str : Str)
  /-- `COMPOSE ev, date, cat, seat, seq` (R100); `seq` is the one signed operand. -/
  | compose (ev : Nat) (y : Nat) (m : Nat) (d : Nat) (cat : Nat) (seat : Nat) (seq : Int)
  /-- `DECODE code` (R115). -/
  | decode (str : Str)
  /-- `FORMAT code` (R102). -/
  | format (str : Str)
  /-- `RMDASH s` (R103). -/
  | rmdash (str : Str)
  /-- `ISVF code` (R122). -/
  | isvf (str : Str)
  /-- `SPLIT code` (R121). -/
  | split (str : Str)
deriving DecidableEq, Repr

/-- The operation an instruction is a request for. -/
def Instr.op : Instr → Op
  | .enc _ _ => .enc
  | .encc _ => .encc
  | .dec _ => .dec
  | .norm _ => .norm
  | .isvc _ => .isvc
  | .crc _ => .crc
  | .append _ => .append
  | .extract _ => .extract
  | .strip _ => .strip
  | .validate _ => .validate
  | .compose _ _ _ _ _ _ _ => .compose
  | .decode _ => .decode
  | .format _ => .format
  | .rmdash _ => .rmdash
  | .isvf _ => .isvf
  | .split _ => .split

/-- A request as it travels: the 16-bit header, then the payload, whose end is out of band (R57, R58). -/
structure Request where
  header  : BitVec 16
  payload : Bits
deriving DecidableEq, Repr

/-- The six failure statuses of the source and the one the spec adds (R130 to R137). -/
inductive Failure
  /-- `COMPOSE` with a negative sequence (R131). -/
  | invalidInput
  /-- A value at or above its field's capacity (R132). -/
  | valueOutOfRange
  /-- `DECODE` or `SPLIT` of something that is not 24 characters (R133). -/
  | invalidLength
  /-- `DECODE` of a code whose checksum does not match (R134). -/
  | invalidChecksum
  /-- `DECODE` of a code whose date word is no supported date (R135). -/
  | invalidDate
  /-- A character that is no symbol (R136). -/
  | decodeFailure
  /-- A header that names no operation (R137). -/
  | illegalRequest
deriving DecidableEq, Repr

/-- The `STATUS` field of a response (R61). -/
inductive Status
  | ok
  | failed (f : Failure)
deriving DecidableEq, Repr

/-- The fields `R_EV` to `R_CS` of a `DECODE` response, with R23's widths, which follow
from the field capacities and not from `CFG`. -/
structure Record where
  ev   : BitVec 25
  y    : BitVec 12
  m    : BitVec 4
  d    : BitVec 5
  cat  : BitVec 15
  seat : BitVec 25
  seq  : BitVec 20
  id   : Str
  cs   : Str
deriving DecidableEq, Repr

/-- The six segments of a composite code, `SEG0` to `SEG5` (R23, R51). -/
structure Segments where
  seg0 : Str
  seg1 : Str
  seg2 : Str
  seg3 : Str
  seg4 : Str
  seg5 : Str
deriving DecidableEq, Repr

/-- The result fields of a response, one alternative per result kind (R23, R59). -/
inductive Result
  /-- `SOUT`. -/
  | s (sout : Str)
  /-- `VOUT`. -/
  | v (vout : Nat)
  /-- `BOUT`. -/
  | b (bout : Bool)
  /-- `R_EV` to `R_CS`. -/
  | r (record : Record)
  /-- `SEG0` to `SEG5`. -/
  | g (segs : Segments)
deriving DecidableEq, Repr

/-- The kind of a result. -/
def Result.kind : Result → ResultKind
  | .s _ => .s
  | .v _ => .v
  | .b _ => .b
  | .r _ => .r
  | .g _ => .g

/-- A response: the status, and the result fields, absent unless the status is `OK` (R23, R59). That a failing
response has none is not built into the type: it is an invariant (`Machine.responseShaped`). -/
structure Response where
  status : Status
  result : Option Result
deriving DecidableEq, Repr

end Sys2Proof
end

