-- ==== Sys2Proof/WellFormed.lean ====
section
/-! DEFINITION. `CONFIG_WF(CFG)`, spec/00_scope.md rule R8, and what R7, R10 and R39 ask of a configuration beside it;
then the well-formed instructions, whose operands fit `CFG`'s widths (spec/10_state.md rule R22). Whether a request is legal
(R62) and of its format (R58) stands beside the decoder in Decode.lean. -/

namespace Sys2Proof

/-- R8 (a): exactly 32 entries, pairwise distinct. -/
def Config.alphabetDistinct (c : Config) : Bool := c.alphabet.length == 32 && decide c.alphabet.Nodup

/-- R8 (b): the ten digits are entries, and every entry is a digit or an upper-case letter (so that, with (a), the
other 22 are upper-case letters). -/
def Config.alphabetDigitsAndLetters (c : Config) : Bool :=
  asciiDigits.all c.alphabet.contains && c.alphabet.all fun ch => asciiDigits.contains ch || isUpperLetter ch

/-- R8 (c): no entry is a separator or a key of `CONFUSE`. -/
def Config.alphabetApart (c : Config) : Bool :=
  c.alphabet.all fun ch => !c.separators.contains ch && !(c.confuse.map Prod.fst).contains ch

/-- R8 (d): every value of `CONFUSE` is an entry; every key is left unchanged by upper-casing and is no separator. -/
def Config.confuseOntoSymbols (c : Config) : Bool :=
  c.confuse.all fun kv => c.alphabet.contains kv.2 && !isLowerLetter kv.1 && !c.separators.contains kv.1

/-- R8 (e): every separator is left unchanged by upper-casing. -/
def Config.separatorsUpper (c : Config) : Bool := c.separators.all fun ch => !isLowerLetter ch

/-- R8 (f): bit 0 of `CRC_POLY` is 1. -/
def Config.polyOdd (c : Config) : Bool := c.crcPoly.getLsbD 0

/-- R7: `CONFUSE` is a partial map, so the list that holds it has one entry for each key (log entry 3). -/
def Config.confuseIsMap (c : Config) : Bool := decide (c.confuse.map Prod.fst).Nodup

/-- R10: a character is a `CHAR_W`-bit code. -/
def charFits (c : Config) (ch : Nat) : Bool := ch < 2 ^ c.widths.charW

/-- Every character of a string is one. -/
def strFits (c : Config) (t : Str) : Bool := t.all (charFits c)

/-- R7, R10: the entries of `ALPHABET` and `SEPARATORS` and the keys of `CONFUSE` are characters (its values are entries of
`ALPHABET`, by (d)). -/
def Config.charactersFit (c : Config) : Bool :=
  strFits c c.alphabet && strFits c c.separators && strFits c (c.confuse.map Prod.fst)

/-- The codes 0x80 to 0xFF (R39), whatever `CHAR_W` is: a code above them, which a wider `CHAR_W` admits, is none. -/
def isHighCode (ch : Nat) : Bool := 0x80 ≤ ch && ch ≤ 0xFF

/-- R39: under a well-formed configuration the codes 0x80 to 0xFF are neither separators nor keys of `CONFUSE` (nor
symbols, by (b)). R8 does not list it among its items (log entry 16). -/
def Config.highCodesInert (c : Config) : Bool :=
  c.separators.all (!isHighCode ·) && (c.confuse.map Prod.fst).all (!isHighCode ·)

/-- `CONFIG_WF`, items (a) to (f) of R8 and nothing else. -/
def Config.configWF (c : Config) : Bool :=
  c.alphabetDistinct && c.alphabetDigitsAndLetters && c.alphabetApart && c.confuseOntoSymbols &&
    c.separatorsUpper && c.polyOdd

/-- A configuration under which the spec has a meaning: `CONFIG_WF` (R8), a map for `CONFUSE` (R7), characters of `CHAR_W`
bits (R10), and R39. The widths may be any that hold the characters. -/
def Config.wellFormed (c : Config) : Bool :=
  c.configWF && c.confuseIsMap && c.charactersFit && c.highCodesInert

/-- An unsigned operand of `w` bits (R22). -/
def natFits (w v : Nat) : Bool := v < 2 ^ w

/-- A two's-complement operand of `w` bits (R22), from `-2^(w-1)` to `2^(w-1) - 1`. -/
def intFits (w : Nat) (v : Int) : Bool := -2 ^ w ≤ 2 * v && 2 * v < 2 ^ w

/-- R22: every operand fits its width. The header's `WIDTH` field has 5 bits whatever `WIDTH_W` is (R57, R71: 0 to 31; log
entry 5). -/
def Instr.wellFormed (c : Config) : Instr → Bool
  | .enc width value => width < 32 && natFits c.widths.widthW width && natFits c.widths.valW value
  | .encc value => natFits c.widths.valW value
  | .isvc ch => charFits c ch
  | .compose ev y m d cat seat seq =>
    natFits c.widths.valW ev && natFits c.widths.yW y && natFits c.widths.mW m && natFits c.widths.dW d &&
      natFits c.widths.valW cat && natFits c.widths.valW seat && intFits c.widths.seqW seq
  | .dec str => strFits c str
  | .norm str => strFits c str
  | .crc str => strFits c str
  | .append str => strFits c str
  | .extract str => strFits c str
  | .strip str => strFits c str
  | .validate str => strFits c str
  | .decode str => strFits c str
  | .format str => strFits c str
  | .rmdash str => strFits c str
  | .isvf str => strFits c str
  | .split str => strFits c str

end Sys2Proof
end

