-- ==== Sys2Proof/Decode.lean ====
section
/-! DEFINITION. The request decoder and, after it, the encoder; the response codes and formats
(spec/30_encoding.md rules R57 to R63). Decoding is total: a request is an instruction, illegal (R62), or not of
its operation's format (log entry 6). The widths of the fields are `CFG`'s (R22); R57 to R59 write them out at the
defaults (log entry 5). -/

namespace Sys2Proof

/-! ## Bit strings, most significant bit first (R58: "Payload, most significant first") -/

/-- The low `w` bits of `n`, most significant first. -/
def natBits : Nat → Nat → Bits
  | 0, _ => []
  | w + 1, n => n.testBit w :: natBits w n

/-- The number a bit string spells, most significant bit first. -/
def bitsNat (bs : Bits) : Nat := bs.foldl (fun n b => 2 * n + b.toNat) 0

/-- The characters of a string in index order, `CHAR_W` bits each (R58 format `S`). -/
def putChars (w : Nat) (s : Str) : Bits := s.flatMap (natBits w)

/-- A signed number in `w` bits, two's complement (R22). -/
def intBits (w : Nat) (v : Int) : Bits := natBits w (v % 2 ^ w).toNat

/-- The first `n` groups of `w` bits, as characters. -/
def takeGroups (w : Nat) : Nat → Bits → Str
  | 0, _ => []
  | n + 1, p => bitsNat (p.take w) :: takeGroups w n (p.drop w)

/-- The string whose characters are the successive groups of `w` bits; none when bits are left over. -/
def takeChars (w : Nat) (p : Bits) : Option Str :=
  if p.length % w = 0 then some (takeGroups w (p.length / w) p) else none

/-- A payload of exactly `w` bits. -/
def takeFixed (w : Nat) (p : Bits) : Option Nat := if p.length = w then some (bitsNat p) else none

/-- The number that `w` bits spell in two's complement. -/
def signedOf (w n : Nat) : Int := if 2 * n < 2 ^ w then n else n - 2 ^ w

/-! ## The codes of R60 and R61 -/

/-- `OP` (R60). -/
def Op.code : Op → BitVec 5
  | .enc => 0x01
  | .encc => 0x02
  | .dec => 0x03
  | .norm => 0x04
  | .isvc => 0x05
  | .crc => 0x06
  | .append => 0x07
  | .extract => 0x08
  | .strip => 0x09
  | .validate => 0x0A
  | .compose => 0x10
  | .decode => 0x11
  | .format => 0x12
  | .rmdash => 0x13
  | .isvf => 0x14
  | .split => 0x15

/-- The sixteen operations in the order of R60. -/
def Op.all : List Op :=
  [.enc, .encc, .dec, .norm, .isvc, .crc, .append, .extract, .strip, .validate, .compose, .decode, .format,
    .rmdash, .isvf, .split]

/-- The operation of a code, if the code is one of the sixteen (R60, R62). -/
def Op.ofCode (code : BitVec 5) : Option Op := Op.all.find? (·.code == code)

/-- The request format of an operation (R58, R60). -/
def Op.reqFormat : Op → Format
  | .enc | .encc => .n
  | .isvc => .c
  | .compose => .g
  | .dec | .norm | .crc | .append | .extract | .strip | .validate | .decode | .format | .rmdash | .isvf | .split =>
    .s

/-- The result kind of an operation (R59, R60). -/
def Op.resultKind : Op → ResultKind
  | .enc | .encc | .norm | .crc | .append | .extract | .strip | .compose | .format | .rmdash => .s
  | .dec => .v
  | .isvc | .validate | .isvf => .b
  | .decode => .r
  | .split => .g

/-- `STATUS` (R61). -/
def Status.code : Status → BitVec 8
  | .ok => 0x00
  | .failed .invalidInput => 0x01
  | .failed .valueOutOfRange => 0x02
  | .failed .invalidLength => 0x03
  | .failed .invalidChecksum => 0x04
  | .failed .invalidDate => 0x05
  | .failed .decodeFailure => 0x06
  | .failed .illegalRequest => 0xFF

/-- The eight statuses in the order of R61. -/
def Status.all : List Status :=
  [.ok, .failed .invalidInput, .failed .valueOutOfRange, .failed .invalidLength, .failed .invalidChecksum,
    .failed .invalidDate, .failed .decodeFailure, .failed .illegalRequest]

/-- The status of a code. -/
def Status.ofCode (code : BitVec 8) : Option Status := Status.all.find? (·.code == code)

/-! ## Header and payload (R57, R58) -/

/-- Header bits 4:0. -/
def headerOp (h : BitVec 16) : BitVec 5 := h.extractLsb' 0 5

/-- Header bits 9:5. -/
def headerWidth (h : BitVec 16) : BitVec 5 := h.extractLsb' 5 5

/-- Header bits 15:10. -/
def headerReserved (h : BitVec 16) : BitVec 6 := h.extractLsb' 10 6

/-- The header of an operation and a width. -/
def header (op : Op) (width : BitVec 5) : BitVec 16 := (0#6 ++ width) ++ op.code

/-- The bits of a format that has a length of its own (R58): 64, 8 and 281 by default. -/
def Widths.bitsN (w : Widths) : Nat := w.valW
def Widths.bitsC (w : Widths) : Nat := w.charW
def Widths.bitsG (w : Widths) : Nat := w.valW + w.yW + w.mW + w.dW + w.valW + w.valW + w.seqW

/-- The field of `w` bits that begins after `skip` bits. -/
def fieldAt (p : Bits) (skip w : Nat) : Nat := bitsNat ((p.drop skip).take w)

/-- The operands of `COMPOSE` out of its payload (R58 format `G`): `EV`, `Y`, `M`, `D`, `CAT`, `SEAT`, `SEQ`. -/
def composeOf (w : Widths) (p : Bits) : Option Instr :=
  if p.length = w.bitsG then
    some (.compose (fieldAt p 0 w.valW) (fieldAt p w.valW w.yW) (fieldAt p (w.valW + w.yW) w.mW)
      (fieldAt p (w.valW + w.yW + w.mW) w.dW) (fieldAt p (w.valW + w.yW + w.mW + w.dW) w.valW)
      (fieldAt p (w.valW + w.yW + w.mW + w.dW + w.valW) w.valW)
      (signedOf w.seqW (fieldAt p (w.valW + w.yW + w.mW + w.dW + w.valW + w.valW) w.seqW)))
  else none

/-- The operands of an operation out of its `WIDTH` and its payload; none when they are not of the format. -/
def decodePayload (w : Widths) (op : Op) (width : Nat) (p : Bits) : Option Instr :=
  match op with
  | .enc => if natFits w.widthW width then (takeFixed w.bitsN p).map (.enc width) else none
  | .encc => (takeFixed w.bitsN p).map .encc
  | .dec => (takeChars w.charW p).map .dec
  | .norm => (takeChars w.charW p).map .norm
  | .isvc => (takeFixed w.bitsC p).map .isvc
  | .crc => (takeChars w.charW p).map .crc
  | .append => (takeChars w.charW p).map .append
  | .extract => (takeChars w.charW p).map .extract
  | .strip => (takeChars w.charW p).map .strip
  | .validate => (takeChars w.charW p).map .validate
  | .compose => composeOf w p
  | .decode => (takeChars w.charW p).map .decode
  | .format => (takeChars w.charW p).map .format
  | .rmdash => (takeChars w.charW p).map .rmdash
  | .isvf => (takeChars w.charW p).map .isvf
  | .split => (takeChars w.charW p).map .split

/-! ## Decoding (R57, R58, R60, R62) -/

/-- Why a header is illegal (R62). -/
inductive IllegalReason
  /-- `OP` is not one of the sixteen codes. -/
  | opUnassigned
  /-- A header bit 15:10 is 1. -/
  | reservedNotZero
  /-- `WIDTH` is not 0 in a request other than `ENC`. -/
  | widthNotZero
deriving DecidableEq, Repr

/-- What the decoder reads in a request. -/
inductive Decoded
  /-- A request for an operation. -/
  | instr (i : Instr)
  /-- A request that the block answers with `IllegalRequest` (R62). -/
  | illegal (why : IllegalReason)
  /-- Not a request of the spec: its payload is not of the format its operation takes, or its `WIDTH` is not of `WIDTH_W`
  bits (R22, R32, R63). -/
  | notOfFormat (f : Format)
deriving DecidableEq, Repr

/-- The decoder. The header is judged before the payload is looked at (R139: `IllegalRequest` first). -/
def decode (c : Config) (r : Request) : Decoded :=
  match Op.ofCode (headerOp r.header) with
  | none => .illegal .opUnassigned
  | some op =>
    if headerReserved r.header ≠ 0 then .illegal .reservedNotZero
    else if headerWidth r.header ≠ 0 ∧ op ≠ .enc then .illegal .widthNotZero
    else
      match decodePayload c.widths op (headerWidth r.header).toNat r.payload with
      | some i => .instr i
      | none => .notOfFormat op.reqFormat

/-- R62 read as a test: a legal header. -/
def Request.legal (r : Request) : Bool :=
  match Op.ofCode (headerOp r.header) with
  | none => false
  | some op => headerReserved r.header == 0 && (headerWidth r.header == 0 || op == .enc)

/-- R58 read as a test: a payload of this many bits is of the format. -/
def Format.fits (w : Widths) (f : Format) (bits : Nat) : Bool :=
  match f with
  | .n => bits == w.bitsN
  | .c => bits == w.bitsC
  | .s => bits % w.charW == 0
  | .g => bits == w.bitsG

/-- A well-formed request: legal, its `WIDTH` of `WIDTH_W` bits, and its payload of its operation's format (R22, R32, R58,
R62). -/
def Request.wellFormed (c : Config) (r : Request) : Bool :=
  r.legal && natFits c.widths.widthW (headerWidth r.header).toNat &&
    ((Op.ofCode (headerOp r.header)).any fun op => op.reqFormat.fits c.widths r.payload.length)

/-! ## Encoding (R57, R58) -/

/-- The value of the header's `WIDTH` field (R57: read only by `ENC`, 0 in every other request). -/
def Instr.widthField : Instr → BitVec 5
  | .enc width _ => BitVec.ofNat 5 width
  | .encc _ | .dec _ | .norm _ | .isvc _ | .crc _ | .append _ | .extract _ | .strip _ | .validate _
  | .compose _ _ _ _ _ _ _ | .decode _ | .format _ | .rmdash _ | .isvf _ | .split _ => 0

/-- The payload of an instruction (R58). -/
def Instr.payload (w : Widths) : Instr → Bits
  | .enc _ value => natBits w.valW value
  | .encc value => natBits w.valW value
  | .isvc ch => natBits w.charW ch
  | .compose ev y m d cat seat seq =>
    natBits w.valW ev ++ natBits w.yW y ++ natBits w.mW m ++ natBits w.dW d ++ natBits w.valW cat ++
      natBits w.valW seat ++ intBits w.seqW seq
  | .dec str => putChars w.charW str
  | .norm str => putChars w.charW str
  | .crc str => putChars w.charW str
  | .append str => putChars w.charW str
  | .extract str => putChars w.charW str
  | .strip str => putChars w.charW str
  | .validate str => putChars w.charW str
  | .decode str => putChars w.charW str
  | .format str => putChars w.charW str
  | .rmdash str => putChars w.charW str
  | .isvf str => putChars w.charW str
  | .split str => putChars w.charW str

/-- The encoder: the request of an instruction. -/
def encode (c : Config) (i : Instr) : Request := ⟨header i.op i.widthField, i.payload c.widths⟩

/-! ## Responses (R59, R61) -/

/-- The result payload of each kind, fields in R59's order. R59 gives no order of the bits inside a field: the most
significant bit first, as R58 has it for requests, is the model's choice (log entry 22). -/
def Result.bits (w : Widths) : Result → Bits
  | .s sout => putChars w.charW sout
  | .v vout => natBits w.valW vout
  | .b bout => [bout]
  | .r rec =>
    natBits 25 rec.ev.toNat ++ natBits 12 rec.y.toNat ++ natBits 4 rec.m.toNat ++ natBits 5 rec.d.toNat ++
      natBits 15 rec.cat.toNat ++ natBits 25 rec.seat.toNat ++ natBits 20 rec.seq.toNat ++ putChars w.charW rec.id ++
      putChars w.charW rec.cs
  | .g segs =>
    putChars w.charW segs.seg0 ++ putChars w.charW segs.seg1 ++ putChars w.charW segs.seg2 ++
      putChars w.charW segs.seg3 ++ putChars w.charW segs.seg4 ++ putChars w.charW segs.seg5

/-- A response as it travels: the 8-bit status, then the result payload if there is one (R59); bits in the order of
log entry 22. -/
def Response.bits (c : Config) (r : Response) : Bits :=
  natBits 8 r.status.code.toNat ++ (r.result.map (Result.bits c.widths)).getD []

/-- The record of a `DECODE` result payload: 106 bits of numbers, then 24 and 2 characters. -/
def takeRecord (w : Nat) (p : Bits) : Option Record :=
  match takeFixed 106 (p.take 106), takeChars w (p.drop 106) with
  | some k, some t =>
    if t.length = 26 then
      let n := BitVec.ofNat 106 k
      some ⟨n.extractLsb' 81 25, n.extractLsb' 69 12, n.extractLsb' 65 4, n.extractLsb' 60 5, n.extractLsb' 45 15,
        n.extractLsb' 20 25, n.extractLsb' 0 20, t.take 24, t.drop 24⟩
    else none
  | _, _ => none

/-- The six segments of a 24-character string: `[0,5) [5,10) [10,13) [13,18) [18,22) [22,24)` (R40, R51). -/
def Segments.ofCode (t : Str) : Segments :=
  ⟨t.take 5, (t.drop 5).take 5, (t.drop 10).take 3, (t.drop 13).take 5, (t.drop 18).take 4, t.drop 22⟩

/-- The segments of a `SPLIT` result payload: 24 characters cut at R51's offsets. -/
def takeSegments (w : Nat) (p : Bits) : Option Segments :=
  match takeChars w p with
  | some t => if t.length = 24 then some (Segments.ofCode t) else none
  | none => none

/-- The result of a kind out of a result payload. -/
def takeResult (w : Widths) (k : ResultKind) (p : Bits) : Option Result :=
  match k with
  | .s => (takeChars w.charW p).map .s
  | .v => (takeFixed w.valW p).map .v
  | .b => match p with
    | [b] => some (.b b)
    | _ => none
  | .r => (takeRecord w.charW p).map .r
  | .g => (takeSegments w.charW p).map .g

/-- The host's reading of a response to a request whose result kind is `k` (R59). What is no response of the spec (fewer
bits than a status, an unassigned status, a payload not of the kind, bits after a failure) reads as none: the model's
choice (log entry 23). -/
def decodeResponse (c : Config) (k : ResultKind) (bs : Bits) : Option Response :=
  if bs.length < 8 then none
  else match Status.ofCode (BitVec.ofNat 8 (bitsNat (bs.take 8))) with
  | none => none
  | some .ok => (takeResult c.widths k (bs.drop 8)).map fun res => ⟨.ok, some res⟩
  | some (.failed f) => if bs.length = 8 then some ⟨.failed f, none⟩ else none

/-! ## The host's table words -/

/-- A payload of zeros of a format: as many bits as the format has, and for a string, which has no length of its own,
24 characters of code 0 (log entry 7). -/
def Format.zeros (w : Widths) : Format → Bits
  | .n => List.replicate w.bitsN false
  | .c => List.replicate w.bitsC false
  | .s => List.replicate (24 * w.charW) false
  | .g => List.replicate w.bitsG false

/-- The request whose header is the low 16 bits of a table word and whose payload is all zeros. A table row has 16
bits, the header, so nothing of `word` lies above it. -/
def tableRequest (c : Config) (word : Nat) : Request :=
  let h := BitVec.ofNat 16 word
  ⟨h, match Op.ofCode (headerOp h) with
    | some op => op.reqFormat.zeros c.widths
    | none => []⟩

/-- The instruction the decoder of the default build reads from a word of `spec/opcode_table.json`, zeros above it. -/
def decodeTableWord (_nbits w : Nat) : Option Instr :=
  match decode Config.default (tableRequest Config.default w) with
  | .instr i => some i
  | .illegal _ => none
  | .notOfFormat _ => none

end Sys2Proof
end

