-- ==== Sys2Proof/Machine/State.lean ====
section
/-! DEFINITION. The state of the machine, the reasons a step can stop, and the state after reset
(spec/10_state.md rules R20 to R33). -/

namespace Sys2Proof.Machine

/-- Why the machine stops with a fault. The block has none: no operation traps, hangs or aborts on any operand
(spec/60_exceptions.md rules R130, R140, R144); a failure status is a response, so a next state. Nobody raises a
fault, and no claim about one can be false. -/
inductive Fault
deriving DecidableEq, Repr

/-- The requests to which the spec gives no meaning, its outcome `refuse` (spec/00_scope.md rule R12). Each refusal is
safe: the hardware may answer anything, and no claim passes through one. -/
inductive Refusal
  /-- Raised by `exec`'s arm of an instruction without a meaning yet; safe. No arm raises it. -/
  | notModelled (mnemonic : String)
  /-- Raised by every request, every step and `generate` under a configuration that fails `CONFIG_WF` (R144, U9), or that is
  none of R7, R10 and R39 (log entries 3, 5, 16); safe. -/
  | configNotWellFormed
  /-- Raised by `step` on a payload that is not of the format of the operation, or a `WIDTH` that is not of `WIDTH_W` bits
  (R22, R32, R63; log entries 5, 6); safe. -/
  | payloadNotOfFormat
  /-- Raised by `DEC` of a string that normalizes to the empty one (R74, U1); safe. -/
  | decodeOfNothing
  /-- Raised by `DEC` of a value that `VAL_W` bits do not hold (R74, U2); safe. -/
  | decodeTooLarge
  /-- Raised by `CRC` and `APPEND` of data that normalizes to nothing (R88, R89, U3); safe. -/
  | checksumOfNothing
  /-- Raised by `VALIDATE` of a normalized length of exactly 2 (R92, U4); safe. -/
  | validateOfNoData
  /-- Raised by `EXTRACT` and `STRIP` of fewer than 2 characters (R90, R91, U5); safe. -/
  | shorterThanChecksum
  /-- Raised by `FORMAT` of anything but 24 symbols (R102, U6); safe. -/
  | notTwentyFourSymbols
  /-- Raised by `COMPOSE` of a day that does not exist (R100, U7); safe. -/
  | notADate
  /-- Raised by the host procedure `generate` on an identifier that parses as a negative integer (R105, U8); safe. -/
  | negativeIdentifier
deriving DecidableEq, Repr

/-- The block and its two ports. The block itself keeps nothing from one operation to the next (R20): what is here is
the constant configuration, the requests the host has issued and the block has not consumed, and the response on the
response port (log entries 1, 15, 17). `draws` is the model's own counter (log entry 9). -/
structure State where
  /-- `CFG` (R7, R26): a constant of the machine, held here so that every claim can be about every configuration. -/
  cfg      : Config
  /-- The host's outstanding requests, in the order issued (R6, R24). -/
  requests : List Request
  /-- The response on the port; none when no response is pending (R23, R33). -/
  response : Option Response
  /-- How many draws `generateSequence` has made (R106): the model's own counter, which no operation reads. -/
  draws    : Nat
deriving DecidableEq, Repr

/-- The machine right after reset (R33, R150, R151): no request taken over, no response pending, `CFG` as built. -/
def State.reset : State where
  cfg      := Config.default
  requests := []
  response := none
  draws    := 0

end Sys2Proof.Machine
end

