-- ==== Sys2Proof/Machine/Ops.lean ====
section
/-! DEFINITION. The shared operations: giving a response, raising a failure status, refusing, and the host's side of
the two ports. The block has no registers and no memory (R21, R28, R35), so no operation reads or writes one. -/

namespace Sys2Proof.Machine

/-- The three outcomes of a request (spec/00_scope.md rules R11, R12). -/
inductive Answer (α : Type)
  /-- `return OK(x)`. -/
  | ok (x : α)
  /-- `raise <Status>`. -/
  | raise (f : Failure)
  /-- `refuse`. -/
  | refuse (r : Refusal)
deriving DecidableEq, Repr

/-- Go on with an `OK` result; a failure or a refusal is final (R116, R140). -/
def Answer.bind {α β : Type} (a : Answer α) (f : α → Answer β) : Answer β :=
  match a with
  | .ok x => f x
  | .raise e => .raise e
  | .refuse r => .refuse r

/-- Change an `OK` result. -/
def Answer.map {α β : Type} (f : α → β) (a : Answer α) : Answer β := a.bind fun x => .ok (f x)

/-- `return OK(x)`: the response has status `OK` and the result (R11). -/
def State.answerOk (res : Result) (s : State) : State := { s with response := some ⟨.ok, some res⟩ }

/-- `raise <Status>`, the block's exception entry (R140): the response is the status with no result; nothing is saved,
no mode or mask changes, control goes nowhere. There is no return from it: the next request is taken as otherwise
(R143). -/
def State.raise (f : Failure) (s : State) : State := { s with response := some ⟨.failed f, none⟩ }

/-- End an operation: put its response on the port, or refuse. Under a configuration that is not well formed nothing
has a meaning (R8, R144, U9; log entry 11). -/
def perform (a : Answer Result) (s : State) : Host.Outcome State Fault Refusal :=
  if s.cfg.wellFormed then
    match a with
    | .ok res => .next (s.answerOk res)
    | .raise f => .next (s.raise f)
    | .refuse r => .refused r
  else .refused .configNotWellFormed

/-- The block takes the oldest request off the port (R6: it consumes one request). -/
def State.consume (s : State) : State := { s with requests := s.requests.tail }

/-- The host issues a request; it is answered after those already issued (R6, R24). -/
def State.issue (r : Request) (s : State) : State := { s with requests := s.requests ++ [r] }

/-- The host takes the response off the port (R6). -/
def State.takeResponse (s : State) : State := { s with response := none }

/-- The reset input (R150): a request whose response has not been delivered is dropped without a response, no response
is pending afterwards, and `CFG` is the same before and after (R33). The draw counter is the host's and stays (log
entry 13). -/
def State.assertReset (s : State) : State := { s with requests := [], response := none }

end Sys2Proof.Machine
end

