-- ==== Sys2Proof/Machine/Operands.lean ====
section
/-! DEFINITION. What the operations do to their operands: the character primitives (spec/00_scope.md rule R11), the
helper functions of spec/40_codec.md rule R70, normalization (R73), and the segments of a code (R40, R51). -/

namespace Sys2Proof.Machine

/-! ## Characters -/

/-- `upper(c)` (R11): the 26 ASCII lower-case letters become upper case, everything else is unchanged (R39). -/
def upper (ch : Nat) : Nat := if isLowerLetter ch then ch - 0x20 else ch

/-- `inA(c)` (R11): an entry of `ALPHABET`. -/
def inA (c : Config) (ch : Nat) : Bool := c.alphabet.contains ch

/-- `sym(v)` (R11): `ALPHABET[v]`, defined for `0 <= v <= 31`, the only use (log entry 21). -/
def sym (c : Config) (v : Nat) : Nat := c.alphabet.getD v 0

/-- `val(c)` (R11): the index of an entry of `ALPHABET`; defined, and used, only under `inA` (log entry 21). -/
def val (c : Config) (ch : Nat) : Nat := c.alphabet.idxOf ch

/-- `issep(c)` (R11). -/
def issep (c : Config) (ch : Nat) : Bool := c.separators.contains ch

/-- `remap(c)` (R11): `CONFUSE(c)` when `c` is a key, else `c`. -/
def remap (c : Config) (ch : Nat) : Nat := (c.confuse.lookup ch).getD ch

/-! ## Strings -/

/-- `digits(v, w)` (R70): the `w` symbols of `v`, most significant first. -/
def digits (c : Config) (v w : Nat) : Str := (List.range w).map fun i => sym c (v / 32 ^ (w - 1 - i) % 32)

/-- `value(t)` (R70), read as R78 (a) computes it: multiply by 32 and add, over unbounded integers. -/
def value (c : Config) (t : Str) : Nat := t.foldl (fun n ch => n * 32 + val c ch) 0

/-- `nchar(c)` (R70): a string of length 0 or 1. -/
def nchar (c : Config) (ch : Nat) : Str :=
  if issep c (upper ch) then [] else [remap c (upper ch)]

/-- `norm(s)` (R73). -/
def normStr (c : Config) (s : Str) : Str := s.flatMap (nchar c)

/-- Every character is an entry of `ALPHABET`. -/
def allSymbols (c : Config) (t : Str) : Bool := t.all (inA c)

/-- The least `w >= 1` with `v < 32^w` (R72). A number of `n` bits has one of at most `n` (at least 1), so the search ends in
the range. -/
def minWidth (v : Nat) : Nat := ((List.range' 1 (v.log2 + 1)).find? fun w => v < 32 ^ w).getD 1

/-- The dash, 0x2D (R55). -/
def dash : Nat := 0x2D

/-- The 29-character form of a code (R55, R102). -/
def dashed (t : Str) : Str :=
  let g := Segments.ofCode t
  g.seg0 ++ [dash] ++ g.seg1 ++ [dash] ++ g.seg2 ++ [dash] ++ g.seg3 ++ [dash] ++ g.seg4 ++ [dash] ++ g.seg5

/-! ## Numbers -/

/-- The date word `YYYY*10000 + MM*100 + DD`, exact (R53, R78 d). -/
def dateWord (y m d : Nat) : Nat := y * 10000 + m * 100 + d

/-- Year, month and day of a date word (R53). -/
def wordYear (w : Nat) : Nat := w / 10000
def wordMonth (w : Nat) : Nat := w / 100 % 100
def wordDay (w : Nat) : Nat := w % 100

end Sys2Proof.Machine
end

