-- ==== Sys2Proof/Machine/Flags.lean ====
section
/-! DEFINITION. The conditions the operations test. The block has no status flags and no condition codes
(spec/10_state.md rule R25): these are tests inside one operation, kept nowhere. -/

namespace Sys2Proof.Machine

/-- `leap(y)` (spec/43_decomposer.md rule R118). -/
def leap (y : Nat) : Bool := y % 4 == 0 && (y % 100 != 0 || y % 400 == 0)

/-- `dim(y, m)` (R118), for a month 1 to 12, the only use (log entry 21). -/
def dim (y m : Nat) : Nat :=
  if m = 2 then (if leap y then 29 else 28)
  else if m = 4 ∨ m = 6 ∨ m = 9 ∨ m = 11 then 30
  else 31

/-- `isdate(y, m, d)` (R118): the day exists in the proleptic Gregorian calendar (log entry 10). -/
def isdate (y m d : Nat) : Bool := 1 ≤ m && m ≤ 12 && 1 ≤ d && d ≤ dim y m

/-- `datecheck(y, m, d)` (R117): the range checks, and the day exists (log entry 10). -/
def datecheck (y m d : Nat) : Bool :=
  1970 ≤ y && y ≤ 2100 && 1 ≤ m && m ≤ 12 && 1 ≤ d && d ≤ 31 && isdate y m d

/-- A value is below the capacity of a field of `w` symbols (R9, R71; the comparison is on the exact power). -/
def fits (v w : Nat) : Bool := v < 32 ^ w

end Sys2Proof.Machine
end

