-- ==== Sys2Proof/Machine/Generator.lean ====
section
/-! DEFINITION. The CRC-10 generator (spec/41_checksum.md rules R85, R86). Its 10-bit accumulator lives inside one
computation only and is kept as the argument of the recursion (spec/10_state.md rule R29; log entry 12). -/

namespace Sys2Proof.Machine

/-- One bit into the register: the feedback is bit 9 exclusive-or the message bit (R85). -/
def crcBit (poly r : BitVec 10) (bit : Bool) : BitVec 10 :=
  if (r.getLsbD 9 ^^ bit) then (r <<< 1) ^^^ poly else r <<< 1

/-- `crc_step(r, s)` (R85): the five bits of a symbol value, bit 4 first (R38). -/
def crcStep (poly r : BitVec 10) (s : BitVec 5) : BitVec 10 :=
  [s.getLsbD 4, s.getLsbD 3, s.getLsbD 2, s.getLsbD 1, s.getLsbD 0].foldl (crcBit poly) r

/-- The register after a sequence of symbol values, from `CRC_INIT` (R86). -/
def crcRegister (c : Config) (vs : List (BitVec 5)) : BitVec 10 := vs.foldl (crcStep c.crcPoly) c.crcInit

/-- `crc10(v)` (R86). -/
def crc10 (c : Config) (vs : List (BitVec 5)) : BitVec 10 := crcRegister c vs ^^^ c.crcXorOut

/-- The symbol values of a string of symbols, as the 5-bit vectors R10 lets them be. -/
def symbolValues (c : Config) (t : Str) : List (BitVec 5) := t.map fun ch => BitVec.ofNat 5 (val c ch)

/-- The two checksum symbols of a string of symbols: `digits(crc10s(t), 2)` (R52, R86, R88). -/
def checksum (c : Config) (t : Str) : Str := digits c (crc10 c (symbolValues c t)).toNat 2

/-- `t` is a string of symbols whose last two are the checksum of the others (R92, R115 stage 3, R122). -/
def checksumGood (c : Config) (t : Str) : Bool :=
  allSymbols c t && t.drop (t.length - 2) == checksum c (t.take (t.length - 2))

end Sys2Proof.Machine
end

