-- ==== Sys2Proof/Machine/Checksum.lean ====
section
/-! DEFINITION. The checksum appender: `CRC`, `APPEND`, `EXTRACT`, `STRIP`, `VALIDATE`
(spec/41_checksum.md rules R88 to R92). -/

namespace Sys2Proof.Machine

/-- `CRC` (R88): `DecodeFailure` is tested before the refusal of empty data (R139). -/
def crcAnswer (c : Config) (str : Str) : Answer Str :=
  let t := normStr c str
  if allSymbols c t then
    if t = [] then .refuse .checksumOfNothing else .ok (checksum c t)
  else .raise .decodeFailure

def execCrc (str : Str) (s : State) : Host.Outcome State Fault Refusal :=
  perform ((crcAnswer s.cfg str).map .s) s

/-- `APPEND` (R89): the operand as given, followed by what `CRC` answers on it. -/
def appendAnswer (c : Config) (str : Str) : Answer Str := (crcAnswer c str).map (str ++ ·)

def execAppend (str : Str) (s : State) : Host.Outcome State Fault Refusal :=
  perform ((appendAnswer s.cfg str).map .s) s

/-- `EXTRACT` (R90): the last two characters as they stand. -/
def extractAnswer (str : Str) : Answer Str :=
  if str.length < 2 then .refuse .shorterThanChecksum else .ok (str.drop (str.length - 2))

def execExtract (str : Str) (s : State) : Host.Outcome State Fault Refusal :=
  perform ((extractAnswer str).map .s) s

/-- `STRIP` (R91): all but the last two characters as they stand. -/
def stripAnswer (str : Str) : Answer Str :=
  if str.length < 2 then .refuse .shorterThanChecksum else .ok (str.take (str.length - 2))

def execStrip (str : Str) (s : State) : Host.Outcome State Fault Refusal :=
  perform ((stripAnswer str).map .s) s

/-- `VALIDATE` (R92): a bad code is the result false, not a failure status. -/
def validateAnswer (c : Config) (str : Str) : Answer Bool :=
  let t := normStr c str
  if t.length < 2 then .ok false
  else if allSymbols c t then
    if t.length = 2 then .refuse .validateOfNoData else .ok (checksumGood c t)
  else .ok false

def execValidate (str : Str) (s : State) : Host.Outcome State Fault Refusal :=
  perform ((validateAnswer s.cfg str).map .b) s

end Sys2Proof.Machine
end

