-- ==== Sys2Proof/Machine/Codec.lean ====
section
/-! DEFINITION. The base-32 field encoder/decoder: `ENC`, `ENCC`, `NORM`, `DEC`, `ISVC`
(spec/40_codec.md rules R71 to R75). -/

namespace Sys2Proof.Machine

/-- `ENC` (R71): `ValueOutOfRange` exactly when `VAL >= 32^WIDTH`, the power exact. -/
def encAnswer (c : Config) (width value : Nat) : Answer Str :=
  if fits value width then .ok (digits c value width) else .raise .valueOutOfRange

def execEnc (width value : Nat) (s : State) : Host.Outcome State Fault Refusal :=
  perform ((encAnswer s.cfg width value).map .s) s

/-- `ENCC` (R72): the minimal width, at least one symbol. -/
def enccAnswer (c : Config) (value : Nat) : Answer Str :=
  .ok (digits c value (minWidth value))

def execEncc (value : Nat) (s : State) : Host.Outcome State Fault Refusal :=
  perform ((enccAnswer s.cfg value).map .s) s

/-- `NORM` (R73). -/
def execNorm (str : Str) (s : State) : Host.Outcome State Fault Refusal :=
  perform (.ok (.s (normStr s.cfg str))) s

/-- `DEC` (R74): `DecodeFailure` is tested before the two refusals (R139). -/
def decAnswer (c : Config) (str : Str) : Answer Nat :=
  let t := normStr c str
  if allSymbols c t then
    if t = [] then .refuse .decodeOfNothing
    else if 2 ^ c.widths.valW ≤ value c t then .refuse .decodeTooLarge
    else .ok (value c t)
  else .raise .decodeFailure

def execDec (str : Str) (s : State) : Host.Outcome State Fault Refusal :=
  perform ((decAnswer s.cfg str).map .v) s

/-- `inA(remap(upper(CH)))` (R75). -/
def validChar (c : Config) (ch : Nat) : Bool := inA c (remap c (upper ch))

/-- `ISVC` (R75). -/
def execIsvc (ch : Nat) (s : State) : Host.Outcome State Fault Refusal :=
  perform (.ok (.b (validChar s.cfg ch))) s

end Sys2Proof.Machine
end

