-- ==== Sys2Proof/Machine/Demultiplexer.lean ====
section
/-! DEFINITION. The fixed-width field demultiplexer: `DECODE`, `SPLIT`, `ISVF`
(spec/43_decomposer.md rules R115 to R122). `DECODE` runs the seven stages one after the other; the stage number and
the intermediate values are transient (spec/10_state.md rule R30; log entry 12). -/

namespace Sys2Proof.Machine

/-- The intermediate values of `DECODE` (R30, R115). -/
structure DecodeWork where
  /-- The operand; from stage 1 on its normalization `t`. -/
  text : Str
  /-- `s0` to `s5`, from stage 4 on. -/
  segs : Segments
  /-- `n0` to `n4`, from stage 5 on. -/
  ev   : Nat
  date : Nat
  cat  : Nat
  seat : Nat
  seq  : Nat
deriving DecidableEq, Repr

/-- A stage: it passes, with the values it adds, or ends the operation with its status. -/
abbrev DecodeStage := DecodeWork → Answer DecodeWork

/-- Stage 1: normalize. -/
def normalizeStage (c : Config) : DecodeStage := fun w => .ok { w with text := normStr c w.text }

/-- Stage 2: the length test; every character counts, symbol or not (R116). -/
def lengthStage : DecodeStage := fun w => if w.text.length = 24 then .ok w else .raise .invalidLength

/-- Stage 3: the checksum test, before any field is interpreted. -/
def checksumStage (c : Config) : DecodeStage := fun w =>
  if checksumGood c w.text then .ok w else .raise .invalidChecksum

/-- Stage 4: the segment split. -/
def splitStage : DecodeStage := fun w => .ok { w with segs := Segments.ofCode w.text }

/-- Stage 5: the fields. Its `DecodeFailure` is the defensive test the source asks for (R116). -/
def fieldStage (c : Config) : DecodeStage := fun w =>
  let g := w.segs
  if allSymbols c g.seg0 && allSymbols c g.seg1 && allSymbols c g.seg2 && allSymbols c g.seg3 && allSymbols c g.seg4
  then
    .ok { w with ev := value c g.seg0, date := value c g.seg1, cat := value c g.seg2, seat := value c g.seg3,
                 seq := value c g.seg4 }
  else .raise .decodeFailure

/-- Stage 6: the date check. -/
def dateStage : DecodeStage := fun w =>
  if datecheck (wordYear w.date) (wordMonth w.date) (wordDay w.date) then .ok w else .raise .invalidDate

/-- Stage 7: the record (R115, R119). -/
def assemble (w : DecodeWork) : Record where
  ev   := BitVec.ofNat 25 w.ev
  y    := BitVec.ofNat 12 (wordYear w.date)
  m    := BitVec.ofNat 4 (wordMonth w.date)
  d    := BitVec.ofNat 5 (wordDay w.date)
  cat  := BitVec.ofNat 15 w.cat
  seat := BitVec.ofNat 25 w.seat
  seq  := BitVec.ofNat 20 w.seq
  id   := w.text
  cs   := w.segs.seg5

/-- Stages 1 to 6 in their order (R116). -/
def decodeStages (c : Config) : List DecodeStage :=
  [normalizeStage c, lengthStage, checksumStage c, splitStage, fieldStage c, dateStage]

/-- Run stages from number `k` on: the number of the stage where the run ends, the first that fails or the one after
the last, and the answer (R30, R116). -/
def runStages (k : Nat) : List DecodeStage → DecodeWork → Nat × Answer DecodeWork
  | [], w => (k, .ok w)
  | stage :: rest, w =>
    match stage w with
    | .ok w' => runStages (k + 1) rest w'
    | .raise f => (k, .raise f)
    | .refuse r => (k, .refuse r)

/-- The values before stage 1: the operand, and nothing else that a stage reads. -/
def DecodeWork.start (str : Str) : DecodeWork :=
  { text := str, segs := ⟨[], [], [], [], [], []⟩, ev := 0, date := 0, cat := 0, seat := 0, seq := 0 }

/-- A whole `DECODE`: the stage number it ends at, 7 with a record, and the answer. -/
def decodeRun (c : Config) (str : Str) : Nat × Answer Record :=
  let run := runStages 1 (decodeStages c) (DecodeWork.start str)
  (run.1, run.2.map assemble)

/-- `DECODE` (R115). -/
def execDecode (str : Str) (s : State) : Host.Outcome State Fault Refusal :=
  perform ((decodeRun s.cfg str).2.map .r) s

/-- `SPLIT` (R121): steps 1, 2 and 4; no checksum test, no alphabet test. -/
def splitAnswer (c : Config) (str : Str) : Answer Segments :=
  let t := normStr c str
  if t.length = 24 then .ok (Segments.ofCode t) else .raise .invalidLength

def execSplit (str : Str) (s : State) : Host.Outcome State Fault Refusal :=
  perform ((splitAnswer s.cfg str).map .g) s

/-- The test of `ISVF` (R122): length, alphabet, checksum; no date. -/
def validFormat (c : Config) (str : Str) : Bool :=
  let t := normStr c str
  t.length == 24 && checksumGood c t

/-- `ISVF` (R122). -/
def execIsvf (str : Str) (s : State) : Host.Outcome State Fault Refusal :=
  perform (.ok (.b (validFormat s.cfg str))) s

end Sys2Proof.Machine
end

