-- ==== Sys2Proof/Machine/Multiplexer.lean ====
section
/-! DEFINITION. The fixed-width field multiplexer: `COMPOSE`, `FORMAT`, `RMDASH`
(spec/42_composer.md rules R100 to R103). -/

namespace Sys2Proof.Machine

/-- The 22 data symbols of a code (R51, R100): event 5, date word 5, category 3, seat 5, sequence 4. -/
def dataSymbols (c : Config) (ev dw cat seat seq : Nat) : Str :=
  digits c ev 5 ++ digits c dw 5 ++ digits c cat 3 ++ digits c seat 5 ++ digits c (seq % 32 ^ 4) 4

/-- `COMPOSE` (R100): not a date, then a negative sequence, then a field out of range, then the code (R101). -/
def composeAnswer (c : Config) (ev y m d cat seat : Nat) (seq : Int) : Answer Str :=
  if isdate y m d then
    if seq < 0 then .raise .invalidInput
    else
      let dw := dateWord y m d
      if fits ev 5 && fits dw 5 && fits cat 3 && fits seat 5 then
        let data := dataSymbols c ev dw cat seat seq.toNat
        .ok (data ++ checksum c data)
      else .raise .valueOutOfRange
  else .refuse .notADate

def execCompose (ev y m d cat seat : Nat) (seq : Int) (s : State) : Host.Outcome State Fault Refusal :=
  perform ((composeAnswer s.cfg ev y m d cat seat seq).map .s) s

/-- `FORMAT` (R102): no normalization, no checksum test. -/
def formatAnswer (c : Config) (str : Str) : Answer Str :=
  if str.length = 24 ∧ allSymbols c str then .ok (dashed str) else .refuse .notTwentyFourSymbols

def execFormat (str : Str) (s : State) : Host.Outcome State Fault Refusal :=
  perform ((formatAnswer s.cfg str).map .s) s

/-- `RMDASH` (R103): every dash goes, nothing else. -/
def removeDashes (str : Str) : Str := str.filter (· != dash)

def execRmdash (str : Str) (s : State) : Host.Outcome State Fault Refusal :=
  perform (.ok (.s (removeDashes str))) s

end Sys2Proof.Machine
end

