-- ==== Sys2Proof/Machine/Dispatch.lean ====
section
/-! DEFINITION. One arm per operation (spec/30_encoding.md rule R60). -/

namespace Sys2Proof.Machine

def exec (i : Instr) (s : State) : Host.Outcome State Fault Refusal :=
  match i with
  -- Base-32 field encoder/decoder (spec/40_codec.md)
  | .enc width value => Sys2Proof.Machine.execEnc width value s
  | .encc value => Sys2Proof.Machine.execEncc value s
  | .dec str => Sys2Proof.Machine.execDec str s
  | .norm str => Sys2Proof.Machine.execNorm str s
  | .isvc ch => Sys2Proof.Machine.execIsvc ch s
  -- CRC-10 generator and checksum appender (spec/41_checksum.md)
  | .crc str => Sys2Proof.Machine.execCrc str s
  | .append str => Sys2Proof.Machine.execAppend str s
  | .extract str => Sys2Proof.Machine.execExtract str s
  | .strip str => Sys2Proof.Machine.execStrip str s
  | .validate str => Sys2Proof.Machine.execValidate str s
  -- Multiplexer and demultiplexer (spec/42_composer.md, spec/43_decomposer.md)
  | .compose ev y m d cat seat seq => Sys2Proof.Machine.execCompose ev y m d cat seat seq s
  | .decode str => Sys2Proof.Machine.execDecode str s
  | .format str => Sys2Proof.Machine.execFormat str s
  | .rmdash str => Sys2Proof.Machine.execRmdash str s
  | .isvf str => Sys2Proof.Machine.execIsvf str s
  | .split str => Sys2Proof.Machine.execSplit str s

end Sys2Proof.Machine
end

