-- ==== Sys2Proof/Machine/Step.lean ====
section
/-! DEFINITION. One step: the block consumes the oldest request and produces one response, atomically
(spec/00_scope.md rule R6; spec/20_memory.md rule R41). -/

namespace Sys2Proof.Machine

/-- The step. Without `CONFIG_WF` there is none (R144, U9). With no request there is nothing to answer and the block
waits (log entry 4). An illegal request is answered `IllegalRequest` and does nothing else (R62, R137). -/
def step (s : State) : Host.Outcome State Fault Refusal :=
  if s.cfg.wellFormed then
    match s.requests with
    | [] => .next s
    | r :: _ =>
      match decode s.cfg r with
      | .instr i => exec i s.consume
      | .illegal _ => perform (.raise .illegalRequest) s.consume
      | .notOfFormat _ => .refused .payloadNotOfFormat
  else .refused .configNotWellFormed

/-- `s` with the request of a table word (zeros above it) issued ahead of all others, so that the next step takes
exactly it (log entry 7). -/
def State.withFetchWord (s : State) (_nbits w : Nat) : State := { s with requests := tableRequest s.cfg w :: s.requests }

end Sys2Proof.Machine
end

