-- ==== Sys2Proof/Machine/FrontEnd.lean ====
section
/-! DEFINITION. The host procedures the spec writes down over open parameters: `generate`, `fieldvalue`,
`generateSequence` (spec/42_composer.md rules R104 to R106) and the rendering of a decoded record
(spec/43_decomposer.md rules R119, R120). They have no operation code and the block does not run them (R65; log entry 19).
The open functions are arguments, so that a claim holds for every value of them (R7, D20, D21; log entry 8). -/

namespace Sys2Proof.Machine

/-- `fieldvalue(str, w)` (R105), over `PARSEINT` (which strings count as integers, and which integer) and `STRHASH`, both
OPEN: any function of the string. -/
def fieldvalue (parseInt : Str → Option Int) (strHash : Str → Nat) (str : Str) (w : Nat) : Answer Nat :=
  match parseInt str with
  | some n =>
    if n < 0 then .refuse .negativeIdentifier
    else if n < 32 ^ w then .ok n.toNat
    else .raise .valueOutOfRange
  | none => .ok (strHash str % 32 ^ w)

/-- The three identifiers as numbers. -/
structure FieldNumbers where
  ev   : Nat
  cat  : Nat
  seat : Nat
deriving DecidableEq, Repr

/-- The string front end of `generate` (R104): emptiness, then the sign of the sequence, then the three field values in
the order written. -/
def frontEnd (parseInt : Str → Option Int) (strHash : Str → Nat) (eventID categoryID seatID : Str)
    (seq : Int) : Answer FieldNumbers :=
  if eventID = [] ∨ categoryID = [] ∨ seatID = [] then .raise .invalidInput
  else if seq < 0 then .raise .invalidInput
  else
    (fieldvalue parseInt strHash eventID 5).bind fun ev =>
    (fieldvalue parseInt strHash categoryID 3).bind fun cat =>
    (fieldvalue parseInt strHash seatID 5).bind fun seat => .ok ⟨ev, cat, seat⟩

/-- The one `COMPOSE` that `generate` expands to (R65, R104). -/
def generateInstr (n : FieldNumbers) (y m d : Nat) (seq : Int) : Instr :=
  .compose n.ev y m d n.cat n.seat seq

/-- `generate(eventID, eventDate, categoryID, seatID, sequence)` (R104): the outcome is that of its `COMPOSE`. It has no
meaning without `CONFIG_WF` (R8, R144). -/
def generate (parseInt : Str → Option Int) (strHash : Str → Nat) (c : Config) (eventID : Str) (y m d : Nat)
    (categoryID seatID : Str) (seq : Int) : Answer Str :=
  if c.wellFormed then
    (frontEnd parseInt strHash eventID categoryID seatID seq).bind fun n =>
      composeAnswer c n.ev y m d n.cat n.seat seq
  else .refuse .configNotWellFormed

/-- `generateSequence()` (R106): a fresh free value in [0, 32^4); it issues no request. -/
def generateSequence (s : State) : Nat × State := (genSeqDraw s.draws % 32 ^ 4, { s with draws := s.draws + 1 })

/-- The record of the source, its identifiers rendered as placeholders by the host (R119, R120). -/
structure RenderedRecord where
  eventID    : Str
  year       : Nat
  month      : Nat
  day        : Nat
  categoryID : Str
  seatID     : Str
  sequence   : Nat
  encodedID  : Str
  checksum   : Str
deriving DecidableEq, Repr

/-- The rendering, over `PLACEHOLDER`, OPEN: any function of the field and the decoded number, and of these only (R120). -/
def renderRecord (placeholder : IdField → Nat → Str) (r : Record) : RenderedRecord where
  eventID    := placeholder .eventID r.ev.toNat
  year       := r.y.toNat
  month      := r.m.toNat
  day        := r.d.toNat
  categoryID := placeholder .categoryID r.cat.toNat
  seatID     := placeholder .seatID r.seat.toNat
  sequence   := r.seq.toNat
  encodedID  := r.id
  checksum   := r.cs

end Sys2Proof.Machine
end

