-- ==== Sys2Proof/Safety.lean ====
section
/-! DEFINITION. The terms the claims are made in: what a response may hold, when a request is refused, which
operation can answer which status, the invariant, and the remainder of a polynomial over GF(2). -/

namespace Sys2Proof.Machine

/-- A record that can be trusted (spec/70_reset_and_hazards.md rule R154; R51's invariants): its code is 24 symbols
with a matching checksum, its fields are the numbers in that code's segments, and its date is a supported date. -/
def recordTrusted (c : Config) (r : Record) : Bool :=
  let g := Segments.ofCode r.id
  r.id.length == 24 && checksumGood c r.id && r.cs == g.seg5 && r.ev.toNat == value c g.seg0 &&
    dateWord r.y.toNat r.m.toNat r.d.toNat == value c g.seg1 && r.cat.toNat == value c g.seg2 &&
    r.seat.toNat == value c g.seg3 && r.seq.toNat == value c g.seg4 &&
    datecheck r.y.toNat r.m.toNat r.d.toNat

/-- The lengths of the segments of a `SPLIT` (R23). -/
def segmentsShaped (g : Segments) : Bool :=
  g.seg0.length == 5 && g.seg1.length == 5 && g.seg2.length == 3 && g.seg3.length == 5 && g.seg4.length == 4 &&
    g.seg5.length == 2

/-- A result as R23 and R59 give it: characters of `CHAR_W` bits, a value of `VAL_W` bits, a trustworthy record, segments of
their lengths. -/
def resultShaped (c : Config) : Result → Bool
  | .s sout => strFits c sout
  | .v vout => natFits c.widths.valW vout
  | .b _ => true
  | .r rec => recordTrusted c rec
  | .g segs =>
    segmentsShaped segs && strFits c (segs.seg0 ++ segs.seg1 ++ segs.seg2 ++ segs.seg3 ++ segs.seg4 ++ segs.seg5)

/-- A response as R23 gives it: a result exactly when the status is `OK`, and a result of its shape. -/
def responseShaped (c : Config) (r : Response) : Bool :=
  match r.status, r.result with
  | .ok, some res => resultShaped c res
  | .failed _, none => true
  | .ok, none => false
  | .failed _, some _ => false

/-- The invariant: the configuration is well formed, and the response on the port has its shape. -/
def stateInv (s : State) : Bool := s.cfg.wellFormed && s.response.all (responseShaped s.cfg)

/-- The requests the spec refuses, by their operands alone: the last column of R138. -/
def refuses (c : Config) : Instr → Bool
  | .enc _ _ => false
  | .encc _ => false
  | .dec str => allSymbols c (normStr c str) && (normStr c str == [] || 2 ^ c.widths.valW ≤ value c (normStr c str))
  | .norm _ => false
  | .isvc _ => false
  | .crc str => normStr c str == []
  | .append str => normStr c str == []
  | .extract str => str.length < 2
  | .strip str => str.length < 2
  | .validate str => (normStr c str).length == 2 && allSymbols c (normStr c str)
  | .compose _ y m d _ _ _ => !isdate y m d
  | .decode _ => false
  | .format str => !(str.length == 24 && allSymbols c str)
  | .rmdash _ => false
  | .isvf _ => false
  | .split _ => false

/-- The status columns of R138 (`IllegalRequest` is answered before an operation is reached). -/
def canAnswer : Op → Status → Bool
  | _, .ok => true
  | .enc, .failed .valueOutOfRange => true
  | .dec, .failed .decodeFailure => true
  | .crc, .failed .decodeFailure => true
  | .append, .failed .decodeFailure => true
  | .compose, .failed .invalidInput => true
  | .compose, .failed .valueOutOfRange => true
  | .decode, .failed .invalidLength => true
  | .decode, .failed .invalidChecksum => true
  | .decode, .failed .invalidDate => true
  | .split, .failed .invalidLength => true
  | _, .failed _ => false

/-- The row of R60 for an operation: its code, its request format and its result kind. -/
def opRow (op : Op) (code : BitVec 5) (f : Format) (k : ResultKind) : Prop :=
  op.code = code ∧ op.reqFormat = f ∧ op.resultKind = k

/-- R62 in the numbers of the header: an unassigned code, a reserved bit, or a width outside `ENC`. -/
def headerIllegal (h : BitVec 16) : Prop :=
  let op := h.toNat % 32
  (op = 0x00 ∨ (0x0B ≤ op ∧ op ≤ 0x0F) ∨ 0x16 ≤ op) ∨ 2 ^ 10 ≤ h.toNat ∨ (h.toNat / 32 % 32 ≠ 0 ∧ op ≠ 0x01)

/-- The remainder of `n` by `g`, both numbers read as polynomials over GF(2), `g` of degree 10 and `n` of degree below
`k + 10`: long division from the top (R85, R86). -/
def polyRem (g : Nat) : Nat → Nat → Nat
  | 0, n => n
  | k + 1, n => polyRem g k (if n.testBit (k + 10) then n ^^^ (g <<< k) else n)

/-- `G(x) = x^10 + sum of CRC_POLY[i] * x^i` (R85). -/
def generatorPoly (poly : BitVec 10) : Nat := 2 ^ 10 + poly.toNat

/-- `M(x)`: the message of a sequence of symbol values, symbol 0 in the highest bits (R86). -/
def messagePoly (vs : List (BitVec 5)) : Nat := vs.foldl (fun n v => n * 32 + v.toNat) 0

end Sys2Proof.Machine
end

