-- ==== Sys2Proof/Certificates/Slice0/Obligations.lean ====
section
/-! DEFINITION. The statements for the provers, in the order of OBLIGATIONS.json. Each docstring names the rule of spec/ it
formalises. `wellFormed`, of a configuration, is `CONFIG_WF` (R8, with log entries 3, 5 and 16), which R144 makes a premise of
every claim; the widths of its `CFG` are any. The numbers in a statement are the operands themselves; a statement of an
instruction holds of every number, so of every one that fits its field. -/

open Sys2Proof Sys2Proof.Machine

/-! ## Requests, responses and their encodings (spec/30_encoding.md) -/

/-- R57, R58, R60: no bit of an operand is dropped by encoding a request and decoding it, for every instruction whose
operands fit the widths of `CFG`, whatever these are. At other widths than the defaults R57 to R59 are read as log entry 5
says. -/
def Obligations.DecodeOfEncodeIsTheInstruction : Prop :=
  ∀ (c : Config) (i : Instr), c.wellFormed = true → i.wellFormed c = true → decode c (encode c i) = .instr i

/-- R57, R58, R62: a request that decodes to an instruction is that instruction's encoding, so each legal request has one
spelling; and the operands read fit their widths (R22; log entry 5). -/
def Obligations.EncodeOfDecodeIsTheRequest : Prop :=
  ∀ (c : Config) (r : Request) (i : Instr), c.wellFormed = true → decode c r = .instr i →
    i.wellFormed c = true ∧ encode c i = r

/-- R32, R58, R62: exactly the well-formed requests decode to an instruction. At other widths than the defaults, what is
well-formed is the reading of log entry 5. -/
def Obligations.WellFormedRequestsAreTheDecodableOnes : Prop :=
  ∀ (c : Config) (r : Request), c.wellFormed = true → (r.wellFormed c = true ↔ ∃ i, decode c r = .instr i)

/-- R62: a header is answered `IllegalRequest`, with no result and nothing else done, exactly when it is illegal by its
numbers. -/
def Obligations.IllegalHeadersAreAnsweredIllegalRequest : Prop :=
  ∀ (s : State) (r : Request) (rest : List Request), s.cfg.wellFormed = true → s.requests = r :: rest →
    (headerIllegal r.header →
      step s = .next { s with requests := rest, response := some ⟨.failed .illegalRequest, none⟩ }) ∧
    (¬ headerIllegal r.header → ∀ t, step s = .next t → t.response ≠ some ⟨.failed .illegalRequest, none⟩)

/-- R57, R60: headers written out from the tables, one or two of each unit, with payloads of R58 at the default widths. -/
def Obligations.HeadersOfTheTableDecode : Prop :=
  let read := decode Config.default
  read ⟨0b0000000010100001, natBits 64 12345⟩ = .instr (.enc 5 12345) ∧
  read ⟨0b0000000000000011, [false, true, false, true, true, false, true, false]⟩ = .instr (.dec (ascii "Z")) ∧
  read ⟨0b0000000000000101, [false, true, false, false, false, false, false, true]⟩ = .instr (.isvc 0x41) ∧
  read ⟨0b0000000000001010, []⟩ = .instr (.validate []) ∧
  read ⟨0b0000000000010001, []⟩ = .instr (.decode []) ∧
  read ⟨0b0000000000010010, []⟩ = .instr (.format []) ∧
  read ⟨0b0000000000010011, [true, false]⟩ = .notOfFormat .s

/-- R59, R61: the host reads back from the bits of a response exactly the response, for every response of the shape R23
gives it and the kind of its operation, whatever the widths of `CFG`. The order of the bits inside a field is the model's choice
(log entry 22); the layout at other widths than R59's 64 and 8 bits is its reading (log entry 5, DEDUCED). -/
def Obligations.ResponsesReadBackFromTheirBits : Prop :=
  ∀ (c : Config) (k : ResultKind) (r : Response), c.wellFormed = true → responseShaped c r = true →
    (∀ res, r.result = some res → res.kind = k) → decodeResponse c k (r.bits c) = some r

/-! ## The step, the state and its invariant (spec/10_state.md, spec/20_memory.md, spec/70_reset_and_hazards.md) -/

/-- R6, R24, R63: the step takes the oldest request off the port and runs the instruction it decodes to. -/
def Obligations.StepRunsTheDecodedInstruction : Prop :=
  ∀ (s : State) (r : Request) (rest : List Request) (i : Instr), s.cfg.wellFormed = true → s.requests = r :: rest →
    decode s.cfg r = .instr i → step s = exec i { s with requests := rest }

/-- The model's choice of log entry 4, no rule of the spec: with no request on the port the block waits. -/
def Obligations.NoRequestMeansNoChange : Prop :=
  ∀ s : State, s.cfg.wellFormed = true → s.requests = [] → step s = .next s

/-- R33, R150, read as log entry 13 reads them (the model's reading, DEDUCED): after the reset input no request and no
response is pending, `CFG` is as before, and the next request issued is answered as by a machine that was never reset. That
every outstanding request and the response not yet taken are dropped, and that the draw counter stays, is the entry's. -/
def Obligations.ResetDropsWhatIsPendingAndNothingElse : Prop :=
  ∀ (s : State) (r : Request), s.cfg.wellFormed = true →
    s.assertReset.requests = [] ∧ s.assertReset.response = none ∧ s.assertReset.cfg = s.cfg ∧
    step (s.assertReset.issue r) = step { s with requests := [r], response := none }

/-- The defaults of R7, R48, R49, R87, which are the spec's own choice (log entry 2), meet `CONFIG_WF`; and the state
after reset meets the invariant. -/
def Obligations.InvariantHoldsAtReset : Prop :=
  Config.default.wellFormed = true ∧ stateInv State.reset = true ∧ State.reset.response = none ∧ State.reset.requests = []

/-- R23, R142, R154: every step keeps the invariant that the response on the port is a status alone or a result of its
shape, and that a record on the port is trustworthy. -/
def Obligations.EveryStepKeepsTheInvariant : Prop :=
  ∀ s t : State, stateInv s = true → step s = .next t → stateInv t = true

/-- R20, R26, R32: an operation writes nothing but the response: the configuration, the outstanding requests and the
draw counter are unchanged. (The block has no register, flag or memory that could change.) -/
def Obligations.OperationsWriteOnlyTheResponse : Prop :=
  ∀ (i : Instr) (s t : State), s.cfg.wellFormed = true → exec i s = .next t →
    ∃ r : Response, t = { s with response := some r }

/-- R32, which the spec derives from R20 and R3 ([derived: from rule R20 and 00_scope.md rule R3]): on admitted requests the
step is a total function that reads nothing but `CFG` and the request and writes nothing but the response: two states that
agree on `CFG` answer alike, whatever stands on their ports; a refused request is refused alike. -/
def Obligations.TheStepIsAFunctionOfConfigAndRequest : Prop :=
  ∀ (i : Instr) (s s' : State), s.cfg.wellFormed = true → s.cfg = s'.cfg →
    (refuses s.cfg i = false → ∃ r : Response, exec i s = .next { s with response := some r } ∧
      exec i s' = .next { s' with response := some r }) ∧
    (∀ q, exec i s = .refused q → exec i s' = .refused q)

/-- R26, R45: no run of any length changes the configuration. -/
def Obligations.NoRunChangesTheConfiguration : Prop :=
  ∀ (n : Nat) (s t : State), s.cfg.wellFormed = true → Host.Core.run Sys2Proof.core n s = .next t → t.cfg = s.cfg

/-- R43: whatever requests came before it and whatever follows it, a request is answered as it is answered alone. That the
requests wait in one queue, and that a response not taken is replaced, is the model's choice (log entries 15, 17). -/
def Obligations.RequestsAreIndependent : Prop :=
  ∀ (s t : State) (before after : List Request) (r : Request), s.cfg.wellFormed = true →
    s.requests = before ++ r :: after → Host.Core.run Sys2Proof.core before.length s = .next t →
    t.requests = r :: after ∧
    ∀ u : State, u.cfg = s.cfg → u.requests = [r] →
      (∀ t', step t = .next t' → ∃ u', step u = .next u' ∧ u'.response = t'.response ∧ t'.requests = after) ∧
      (∀ q, step t = .refused q → step u = .refused q)

/-- A queue of requests the spec gives a meaning is answered to its end (R144: every well-formed request gets a response).
That this takes one step a request, each response replacing the one before whether or not the host took it, is the model's
choice of log entries 15 and 17, no rule of the spec. -/
def Obligations.AdmittedQueuesAreAnsweredToTheEnd : Prop :=
  ∀ s : State, s.cfg.wellFormed = true →
    (∀ r ∈ s.requests, headerIllegal r.header ∨ ∃ i, decode s.cfg r = .instr i ∧ refuses s.cfg i = false) →
    ∃ t, Host.Core.run Sys2Proof.core s.requests.length s = .next t ∧ t.requests = [] ∧ t.cfg = s.cfg ∧
      (s.requests ≠ [] → t.response ≠ none)

/-- R8, R144: under a configuration that is not well formed no instruction has a result, there is no step, with or without a
request, and the host procedure `generate` has no result. The hypothesis is wider than failing R8's `CONFIG_WF`: that
configurations with two entries for a key of `CONFUSE` (log entry 3), with characters that `CHAR_W` bits do not hold (log
entry 5) and with a code 0x80 to 0xFF as a separator or a key (log entry 16) are refused too is the model's reading, no rule
of the spec. -/
def Obligations.MalformedConfigurationGivesNoStep : Prop :=
  ∀ s : State, s.cfg.wellFormed = false →
    (∀ i, exec i s = .refused .configNotWellFormed) ∧ step s = .refused .configNotWellFormed ∧
    ∀ (parseInt : Str → Option Int) (strHash : Str → Nat) (eventID : Str) (y m d : Nat)
      (categoryID seatID : Str) (seq : Int),
      generate parseInt strHash s.cfg eventID y m d categoryID seatID seq = .refuse .configNotWellFormed

/-! ## Statuses (spec/60_exceptions.md) -/

/-- R138: every request, of operands that fit their widths (R22), outside the last column is answered, with a status of its
row, a result of its kind exactly when the status is `OK`, and a result of its shape. -/
def Obligations.AdmittedRequestsAreAnsweredWithinTheMatrix : Prop :=
  ∀ (i : Instr) (s : State), s.cfg.wellFormed = true → i.wellFormed s.cfg = true → refuses s.cfg i = false →
    ∃ r : Response, exec i s = .next { s with response := some r } ∧ canAnswer i.op r.status = true ∧
      responseShaped s.cfg r = true ∧ (∀ res, r.result = some res → res.kind = i.op.resultKind)

/-- R138, last column: exactly the refused requests are refused. -/
def Obligations.RefusedRequestsAreThoseOfTheLastColumn : Prop :=
  ∀ (i : Instr) (s : State), s.cfg.wellFormed = true → ((∃ q, exec i s = .refused q) ↔ refuses s.cfg i = true)

/-- R138: every cell that says yes occurs, by one example for each under the default configuration, the spec's own choice
(log entry 2). -/
def Obligations.EveryCellOfTheMatrixOccurs : Prop :=
  ∀ (op : Op) (st : Status), canAnswer op st = true →
    ∃ (i : Instr) (t : State) (r : Response), i.op = op ∧ exec i State.reset = .next t ∧ t.response = some r ∧
      r.status = st

/-- R142: a failing response carries no result, and a response with a result is `OK`. -/
def Obligations.FailuresCarryNoPartialResult : Prop :=
  ∀ (s t : State) (r : Response), s.cfg.wellFormed = true → s.requests ≠ [] → step s = .next t →
    t.response = some r →
    (r.status = .ok ↔ r.result ≠ none)

/-! ## The codec (spec/40_codec.md) -/

/-- R71: `ENC` gives exactly `WIDTH` symbols, most significant first, or `ValueOutOfRange` exactly when
`VAL >= 32^WIDTH`, which no value of `VAL_W` bits does once `5*WIDTH` reaches `VAL_W` (from width 13 on, at 64 bits). -/
def Obligations.EncGivesTheFieldOrValueOutOfRange : Prop :=
  opRow .enc 0x01 .n .s ∧
  ∀ (s : State) (w v : Nat), s.cfg.wellFormed = true →
    (v < 32 ^ w → ∃ t : Str, exec (.enc w v) s = .next (s.answerOk (.s t)) ∧ t.length = w ∧
      (∀ i, i < w → t[i]? = s.cfg.alphabet[v / 32 ^ (w - 1 - i) % 32]?) ∧ ∀ ch ∈ t, ch ∈ s.cfg.alphabet) ∧
    (32 ^ w ≤ v → exec (.enc w v) s = .next (s.raise .valueOutOfRange)) ∧
    (v < 2 ^ s.cfg.widths.valW → s.cfg.widths.valW ≤ 5 * w → v < 32 ^ w)

/-- R72: `ENCC` gives the minimal number of symbols, at least one; never more than 13 for a value of 64 bits, and no leading
zero symbol but in the one symbol of 0. A request for it whose `WIDTH` is not 0 is illegal. -/
def Obligations.EnccGivesTheShortestField : Prop :=
  opRow .encc 0x02 .n .s ∧
  ∀ (s : State) (v : Nat), s.cfg.wellFormed = true →
    (∀ (w : BitVec 5) (p : Bits), w ≠ 0 → decode s.cfg ⟨header .encc w, p⟩ = .illegal .widthNotZero) ∧
    ∃ w : Nat, exec (.encc v) s = .next (s.answerOk (.s (digits s.cfg v w))) ∧ 1 ≤ w ∧ (v < 2 ^ 64 → w ≤ 13) ∧
      v < 32 ^ w ∧ (∀ w', 1 ≤ w' → v < 32 ^ w' → w ≤ w') ∧
      (v ≠ 0 → (digits s.cfg v w).head? ≠ some (sym s.cfg 0))

/-- R73: `NORM` answers on every string, the characters in order, each upper-cased, dropped if a separator, and remapped
if a confusable; never more characters than the operand has. -/
def Obligations.NormDropsSeparatorsAndRemaps : Prop :=
  opRow .norm 0x04 .s .s ∧
  ∀ (s : State) (str : Str), s.cfg.wellFormed = true →
    ∃ t : Str, exec (.norm str) s = .next (s.answerOk (.s t)) ∧ t = normStr s.cfg str ∧ t.length ≤ str.length ∧
      t = ((str.map upper).filter fun u => !s.cfg.separators.contains u).map fun u =>
        (s.cfg.confuse.lookup u).getD u

/-- R76, which the spec derives from R70 and R8: normalization is idempotent, said of the operation. -/
def Obligations.NormIsIdempotent : Prop :=
  ∀ (s : State) (str : Str), s.cfg.wellFormed = true →
    ∃ t : Str, exec (.norm str) s = .next (s.answerOk (.s t)) ∧ exec (.norm t) s = .next (s.answerOk (.s t))

/-- R74: `DEC` answers `DecodeFailure` exactly when the normalized string holds a character that is no symbol; else the
value, or a refusal when there is no symbol or the value does not fit `VAL_W` bits. -/
def Obligations.DecGivesTheValue : Prop :=
  opRow .dec 0x03 .s .v ∧
  ∀ (s : State) (str : Str), s.cfg.wellFormed = true →
    let t := normStr s.cfg str
    ((∃ ch ∈ t, ch ∉ s.cfg.alphabet) → exec (.dec str) s = .next (s.raise .decodeFailure)) ∧
    (t = [] → exec (.dec str) s = .refused .decodeOfNothing) ∧
    (t ≠ [] → (∀ ch ∈ t, ch ∈ s.cfg.alphabet) →
      (2 ^ s.cfg.widths.valW ≤ value s.cfg t → exec (.dec str) s = .refused .decodeTooLarge) ∧
      (value s.cfg t < 2 ^ s.cfg.widths.valW → exec (.dec str) s = .next (s.answerOk (.v (value s.cfg t)))))

/-- R75: `ISVC` is true exactly of a character that upper-cases and remaps to a symbol; of a character that is no
separator, exactly when its normalization is one symbol. -/
def Obligations.IsvcTestsTheRemappedCharacter : Prop :=
  opRow .isvc 0x05 .c .b ∧
  ∀ (s : State) (ch : Nat), s.cfg.wellFormed = true →
    ∃ b : Bool, exec (.isvc ch) s = .next (s.answerOk (.b b)) ∧
      (b = true ↔ (s.cfg.confuse.lookup (upper ch)).getD (upper ch) ∈ s.cfg.alphabet) ∧
      (upper ch ∉ s.cfg.separators → (b = true ↔ ∃ u ∈ s.cfg.alphabet, normStr s.cfg [ch] = [u])) ∧
      (upper ch ∈ s.cfg.separators → b = false)

/-- R70: `value` is the sum of the symbol values times their weights, and `digits` and `value` are inverse at every
fixed length. -/
def Obligations.DigitsAndValueAreInverse : Prop :=
  ∀ c : Config, c.wellFormed = true →
    (∀ t : Str, value c t = ∑ i ∈ Finset.range t.length, val c (t.getD i 0) * 32 ^ (t.length - 1 - i)) ∧
    (∀ v w : Nat, v < 32 ^ w → value c (digits c v w) = v ∧ (digits c v w).length = w) ∧
    (∀ t : Str, (∀ ch ∈ t, ch ∈ c.alphabet) → value c t < 32 ^ t.length ∧ digits c (value c t) t.length = t)

/-- R77: the round trips between `ENC`, `ENCC` and `DEC`, for operands that fit their widths. -/
def Obligations.CodecRoundTrips : Prop :=
  ∀ s : State, s.cfg.wellFormed = true →
    (∀ w v : Nat, (Instr.enc w v).wellFormed s.cfg = true → 1 ≤ w → v < 32 ^ w →
      ∃ t : Str, exec (.enc w v) s = .next (s.answerOk (.s t)) ∧ exec (.dec t) s = .next (s.answerOk (.v v))) ∧
    (∀ v : Nat, (Instr.encc v).wellFormed s.cfg = true →
      ∃ t : Str, exec (.encc v) s = .next (s.answerOk (.s t)) ∧ exec (.dec t) s = .next (s.answerOk (.v v))) ∧
    (∀ (str : Str) (v : Nat), exec (.dec str) s = .next (s.answerOk (.v v)) → (normStr s.cfg str).length ≤ 31 →
      exec (.enc (normStr s.cfg str).length v) s = .next (s.answerOk (.s (normStr s.cfg str))))

/-! ## The CRC-10 generator and the checksum appender (spec/41_checksum.md) -/

/-- R85: one symbol value into the register, bit 4 first, is a step of polynomial division. The spec marks the register
form and the bit order as its own choice (D6, log entry 2). -/
def Obligations.CrcStepIsAPolynomialStep : Prop :=
  ∀ (c : Config) (r : BitVec 10) (v : BitVec 5), c.wellFormed = true →
    let poly := c.crcPoly
    let shift := fun (q : BitVec 10) (i : Nat) =>
      if (q.getLsbD 9 ^^ v.getLsbD i) then (q <<< 1) ^^^ poly else q <<< 1
    crcStep poly r v = shift (shift (shift (shift (shift r 4) 3) 2) 1) 0 ∧
    (crcStep poly r v).toNat = polyRem (generatorPoly poly) 5 ((r.toNat <<< 5) ^^^ (v.toNat <<< 10))

/-- R86: the CRC of a sequence is a polynomial remainder, whatever the generator, `CRC_INIT` and `CRC_XOROUT`; and two
sequences of one length differ in CRC by the remainder of their difference. The spec derives the rule from R85, its own
choice (D6, log entry 2). -/
def Obligations.CrcIsAPolynomialRemainder : Prop :=
  ∀ (c : Config) (vs us : List (BitVec 5)), c.wellFormed = true →
    (crc10 c vs).toNat =
      polyRem (generatorPoly c.crcPoly) (5 * vs.length)
        ((c.crcInit.toNat <<< (5 * vs.length)) ^^^ (messagePoly vs <<< 10)) ^^^ c.crcXorOut.toNat ∧
    (vs.length = us.length →
      (crc10 c vs ^^^ crc10 c us).toNat =
        polyRem (generatorPoly c.crcPoly) (5 * vs.length) ((messagePoly vs ^^^ messagePoly us) <<< 10))

/-- R88: `CRC` answers the two checksum symbols of the normalized data, high bits first; `DecodeFailure` exactly when a
character is no symbol; empty data is refused. -/
def Obligations.CrcGivesTwoChecksumSymbols : Prop :=
  opRow .crc 0x06 .s .s ∧
  ∀ (s : State) (str : Str), s.cfg.wellFormed = true →
    let t := normStr s.cfg str
    ((∃ ch ∈ t, ch ∉ s.cfg.alphabet) → exec (.crc str) s = .next (s.raise .decodeFailure)) ∧
    (t = [] → exec (.crc str) s = .refused .checksumOfNothing) ∧
    (t ≠ [] → (∀ ch ∈ t, ch ∈ s.cfg.alphabet) →
      exec (.crc str) s = .next (s.answerOk (.s
        [sym s.cfg ((crc10 s.cfg (symbolValues s.cfg t)).toNat / 32),
         sym s.cfg ((crc10 s.cfg (symbolValues s.cfg t)).toNat % 32)])))

/-- R89, R65: `APPEND` answers the operand as given followed by what `CRC` answers, fails and is refused as `CRC` is; and
`VALIDATE` of its result is true. -/
def Obligations.AppendAddsTheChecksum : Prop :=
  opRow .append 0x07 .s .s ∧
  ∀ (s : State) (str : Str), s.cfg.wellFormed = true →
    (∀ cs, exec (.crc str) s = .next (s.answerOk (.s cs)) →
      exec (.append str) s = .next (s.answerOk (.s (str ++ cs))) ∧ cs.length = 2 ∧
      exec (.validate (str ++ cs)) s = .next (s.answerOk (.b true))) ∧
    (∀ f, exec (.crc str) s = .next (s.raise f) → exec (.append str) s = .next (s.raise f)) ∧
    (∀ q, exec (.crc str) s = .refused q → exec (.append str) s = .refused q)

/-- Completion of `CRC` and `APPEND` (R88, R89): on data that normalizes to at least one symbol and nothing else. -/
def Obligations.CrcAndAppendComplete : Prop :=
  ∀ (s : State) (str : Str), s.cfg.wellFormed = true → normStr s.cfg str ≠ [] →
    (∀ ch ∈ normStr s.cfg str, ch ∈ s.cfg.alphabet) →
    ∃ cs : Str, exec (.crc str) s = .next (s.answerOk (.s cs)) ∧
      exec (.append str) s = .next (s.answerOk (.s (str ++ cs)))

/-- R90, R91: `EXTRACT` and `STRIP` cut a string of at least 2 characters, as it stands, before its last two; a shorter
one is refused. -/
def Obligations.ExtractAndStripCutTheString : Prop :=
  opRow .extract 0x08 .s .s ∧ opRow .strip 0x09 .s .s ∧
  ∀ (s : State) (str : Str), s.cfg.wellFormed = true →
    (2 ≤ str.length → ∃ data cs : Str, exec (.strip str) s = .next (s.answerOk (.s data)) ∧
      exec (.extract str) s = .next (s.answerOk (.s cs)) ∧ data ++ cs = str ∧ cs.length = 2) ∧
    (str.length < 2 → exec (.strip str) s = .refused .shorterThanChecksum ∧
      exec (.extract str) s = .refused .shorterThanChecksum)

/-- R92: `VALIDATE` normalizes, answers false on what is too short or holds a character that is no symbol, and else
whether the last two symbols are the checksum of the others; a normalized length of exactly 2 symbols is refused. -/
def Obligations.ValidateComparesTheChecksum : Prop :=
  opRow .validate 0x0A .s .b ∧
  ∀ (s : State) (str : Str), s.cfg.wellFormed = true →
    let t := normStr s.cfg str
    let n := t.length
    (n < 2 → exec (.validate str) s = .next (s.answerOk (.b false))) ∧
    ((∃ ch ∈ t, ch ∉ s.cfg.alphabet) → exec (.validate str) s = .next (s.answerOk (.b false))) ∧
    ((∀ ch ∈ t, ch ∈ s.cfg.alphabet) →
      (n = 2 → exec (.validate str) s = .refused .validateOfNoData) ∧
      (2 < n → exec (.validate str) s = .next (s.answerOk (.b (decide
        (t.drop (n - 2) = digits s.cfg (crc10 s.cfg (symbolValues s.cfg (t.take (n - 2)))).toNat 2))))))

/-- R93: for every valid code and every substitution of one symbol, `VALIDATE` is false, in the data and in the checksum
field; a replacement by a character that normalizes to the original symbol validates, one by a character without a symbol
value does not. Stated of any typed strings by their normalizations. The source promises the data symbols only; the checksum
field and the characters without a symbol value are the spec's derivation in R93. -/
def Obligations.SingleSymbolSubstitutionIsDetected : Prop :=
  ∀ (s : State) (str str' : Str) (k : Nat) (ch : Nat), s.cfg.wellFormed = true →
    exec (.validate str) s = .next (s.answerOk (.b true)) → k < (normStr s.cfg str).length →
    normStr s.cfg str' = (normStr s.cfg str).set k ch →
    exec (.validate str') s = .next (s.answerOk (.b (decide ((normStr s.cfg str)[k]? = some ch))))

/-- R94, of the spec's generator and not of the source (D6, log entry 2): a change confined to two adjacent data symbols
is detected. -/
def Obligations.AdjacentDataSymbolErrorsAreDetected : Prop :=
  ∀ (s : State) (str str' : Str) (k : Nat) (a b : Nat), s.cfg.wellFormed = true →
    exec (.validate str) s = .next (s.answerOk (.b true)) → k + 1 < (normStr s.cfg str).length - 2 →
    normStr s.cfg str' = ((normStr s.cfg str).set k a).set (k + 1) b → normStr s.cfg str' ≠ normStr s.cfg str →
    exec (.validate str') s = .next (s.answerOk (.b false))

/-- R87, R159: with `CRC_INIT` = 0 and `CRC_XOROUT` = 0 leading symbols of value 0 do not change the CRC, and the code of
24 symbols of value 0 passes `ISVF` and fails `DECODE` by its date. -/
def Obligations.ZeroStartMakesTheAllZeroCodeMatch : Prop :=
  ∀ s : State, s.cfg.wellFormed = true → s.cfg.crcInit = 0 → s.cfg.crcXorOut = 0 →
    (∀ (n : Nat) (vs : List (BitVec 5)), crc10 s.cfg (List.replicate n 0 ++ vs) = crc10 s.cfg vs) ∧
    exec (.isvf (List.replicate 24 (sym s.cfg 0))) s = .next (s.answerOk (.b true)) ∧
    exec (.decode (List.replicate 24 (sym s.cfg 0))) s = .next (s.raise .invalidDate)

/-! ## The multiplexer and the host procedures around it (spec/42_composer.md) -/

/-- R100, R101: `COMPOSE` refuses what is no date, then answers `InvalidInput` to a negative sequence, then
`ValueOutOfRange` to a field at or above its capacity, and else the 24 symbols of the five fields and the checksum, on
which `VALIDATE` and `ISVF` are true. -/
def Obligations.ComposePacksTheFields : Prop :=
  opRow .compose 0x10 .g .s ∧
  ∀ (s : State) (ev y m d cat seat : Nat) (seq : Int), s.cfg.wellFormed = true →
    let out := exec (.compose ev y m d cat seat seq) s
    let dw := y * 10000 + m * 100 + d
    let inRange := ev < 32 ^ 5 ∧ dw < 32 ^ 5 ∧ cat < 32 ^ 3 ∧ seat < 32 ^ 5
    let data := digits s.cfg ev 5 ++ digits s.cfg dw 5 ++ digits s.cfg cat 3 ++ digits s.cfg seat 5 ++
      digits s.cfg (seq.toNat % 32 ^ 4) 4
    let code := data ++ digits s.cfg (crc10 s.cfg (symbolValues s.cfg data)).toNat 2
    (isdate y m d = false → out = .refused .notADate) ∧
    (isdate y m d = true →
      (seq < 0 → out = .next (s.raise .invalidInput)) ∧
      (0 ≤ seq → ¬ inRange → out = .next (s.raise .valueOutOfRange)) ∧
      (0 ≤ seq → inRange → out = .next (s.answerOk (.s code)) ∧ data.length = 22 ∧ code.length = 24 ∧
        exec (.validate code) s = .next (s.answerOk (.b true)) ∧
        exec (.isvf code) s = .next (s.answerOk (.b true))))

/-- R65, R100: `COMPOSE` answers what `APPEND` answers on the concatenation of five `ENC` results. -/
def Obligations.ComposeIsFiveEncAndOneAppend : Prop :=
  ∀ (s : State) (ev y m d cat seat : Nat) (seq : Int) (a b g h q : Str), s.cfg.wellFormed = true →
    isdate y m d = true → 0 ≤ seq →
    exec (.enc 5 ev) s = .next (s.answerOk (.s a)) →
    exec (.enc 5 (y * 10000 + m * 100 + d)) s = .next (s.answerOk (.s b)) →
    exec (.enc 3 cat) s = .next (s.answerOk (.s g)) →
    exec (.enc 5 seat) s = .next (s.answerOk (.s h)) →
    exec (.enc 4 (seq.toNat % 1048576)) s = .next (s.answerOk (.s q)) →
    exec (.compose ev y m d cat seat seq) s = exec (.append (a ++ b ++ g ++ h ++ q)) s

/-- R54, R155: sequences that agree modulo 32^4 give the same code. -/
def Obligations.SequencesWrapModuloTheCapacity : Prop :=
  ∀ (s : State) (ev y m d cat seat : Nat) (seq seq' : Int), s.cfg.wellFormed = true → 0 ≤ seq → 0 ≤ seq' →
    seq % 1048576 = seq' % 1048576 →
    exec (.compose ev y m d cat seat seq) s = exec (.compose ev y m d cat seat seq') s

/-- R100 (b), (c): the supported years are not tested when a code is composed: a year outside them up to 3355 composes,
and `DECODE` of the code answers `InvalidDate`; a year from 3356 on is out of range. -/
def Obligations.YearsAreTestedByDecodeOnly : Prop :=
  ∀ (s : State) (ev y m d cat seat : Nat) (seq : Int), s.cfg.wellFormed = true → isdate y m d = true → 0 ≤ seq →
    ev < 32 ^ 5 → cat < 32 ^ 3 → seat < 32 ^ 5 →
    (3356 ≤ y → exec (.compose ev y m d cat seat seq) s = .next (s.raise .valueOutOfRange)) ∧
    (y ≤ 3355 → y < 1970 ∨ 2100 < y →
      ∃ code : Str, exec (.compose ev y m d cat seat seq) s = .next (s.answerOk (.s code)) ∧
        exec (.decode code) s = .next (s.raise .invalidDate))

/-- R102, R55: `FORMAT` of exactly 24 symbols is the 29 characters with dashes at 5, 11, 15, 21 and 26; everything else
is refused. -/
def Obligations.FormatInsertsFiveDashes : Prop :=
  opRow .format 0x12 .s .s ∧
  ∀ (s : State) (str : Str), s.cfg.wellFormed = true →
    (str.length = 24 → (∀ ch ∈ str, ch ∈ s.cfg.alphabet) →
      ∃ t : Str, exec (.format str) s = .next (s.answerOk (.s t)) ∧ t.length = 29 ∧
        t = (str.drop 0).take 5 ++ [0x2D] ++ (str.drop 5).take 5 ++ [0x2D] ++ (str.drop 10).take 3 ++ [0x2D] ++
          (str.drop 13).take 5 ++ [0x2D] ++ (str.drop 18).take 4 ++ [0x2D] ++ (str.drop 22).take 2) ∧
    (¬ (str.length = 24 ∧ ∀ ch ∈ str, ch ∈ s.cfg.alphabet) →
      exec (.format str) s = .refused .notTwentyFourSymbols)

/-- R103: `RMDASH` answers on every string, removing every dash and nothing else, the order kept. -/
def Obligations.RmdashRemovesDashesOnly : Prop :=
  opRow .rmdash 0x13 .s .s ∧
  ∀ (s : State) (str : Str), s.cfg.wellFormed = true →
    ∃ t : Str, exec (.rmdash str) s = .next (s.answerOk (.s t)) ∧ t.Sublist str ∧ (0x2D : Nat) ∉ t ∧
      ∀ ch : Nat, ch ≠ 0x2D → t.count ch = str.count ch

/-- R107: for every code of 24 symbols, `RMDASH` undoes `FORMAT`, and so does `NORM` wherever the dash is a separator (R107
gives that as its reason; it is so by default, and `CONFIG_WF` does not ask for it). -/
def Obligations.RmdashAndNormUndoFormat : Prop :=
  ∀ (s : State) (code : Str), s.cfg.wellFormed = true → code.length = 24 → (∀ ch ∈ code, ch ∈ s.cfg.alphabet) →
    ∃ shown : Str, exec (.format code) s = .next (s.answerOk (.s shown)) ∧
      exec (.rmdash shown) s = .next (s.answerOk (.s code)) ∧
      ((0x2D : Nat) ∈ s.cfg.separators → exec (.norm shown) s = .next (s.answerOk (.s code)))

/-- R104, R105, R123: the host procedure `generate`, whatever the parser and the hash are. A code it gives decodes to the
field values of its three strings, its date and its sequence modulo 32^4, or, for a year that is not supported, is answered
`InvalidDate` (R100 b). Every failure and refusal has one of its causes, and with none of them there is a code. -/
def Obligations.GeneratedCodesDecodeToTheFieldValues : Prop :=
  ∀ (parseInt : Str → Option Int) (strHash : Str → Nat) (s : State) (eventID : Str) (y m d : Nat)
    (categoryID seatID : Str) (seq : Int), s.cfg.wellFormed = true →
    let out := generate parseInt strHash s.cfg eventID y m d categoryID seatID seq
    let field := fieldvalue parseInt strHash
    let named := eventID ≠ [] ∧ categoryID ≠ [] ∧ seatID ≠ []
    let day := isdate y m d
    let dateFits := y * 10000 + m * 100 + d < 32 ^ 5
    let tooLarge := fun (str : Str) (w : Nat) => ∃ n, parseInt str = some n ∧ 32 ^ w ≤ n
    let negative := fun str : Str => ∃ n, parseInt str = some n ∧ n < 0
    (match out with
      | .ok code => named ∧ 0 ≤ seq ∧ day = true ∧
        (1970 ≤ y ∧ y ≤ 2100 → ∃ rec : Record, exec (.decode code) s = .next (s.answerOk (.r rec)) ∧
          field eventID 5 = .ok rec.ev.toNat ∧ field categoryID 3 = .ok rec.cat.toNat ∧
          field seatID 5 = .ok rec.seat.toNat ∧ rec.y.toNat = y ∧ rec.m.toNat = m ∧
          rec.d.toNat = d ∧ rec.seq.toNat = seq.toNat % 32 ^ 4 ∧ rec.id = code) ∧
        (y < 1970 ∨ 2100 < y → exec (.decode code) s = .next (s.raise .invalidDate))
      | .raise f => (f = .invalidInput ∧ (¬ named ∨ seq < 0)) ∨
        (f = .valueOutOfRange ∧ named ∧ 0 ≤ seq ∧
          (tooLarge eventID 5 ∨ tooLarge categoryID 3 ∨ tooLarge seatID 5 ∨ ¬ dateFits))
      | .refuse q => named ∧ 0 ≤ seq ∧
        ((q = .negativeIdentifier ∧ (negative eventID ∨ negative categoryID ∨ negative seatID)) ∨
          (q = .notADate ∧ day = false))) ∧
    (¬ named ∨ seq < 0 → out = .raise .invalidInput) ∧
    (named → 0 ≤ seq → ∀ ev cat seat, field eventID 5 = .ok ev → field categoryID 3 = .ok cat →
      field seatID 5 = .ok seat →
      (day = false → out = .refuse .notADate) ∧ (day = true → dateFits → ∃ code, out = .ok code) ∧
      (day = true → ¬ dateFits → out = .raise .valueOutOfRange))

/-- R105: the field value of a string, whatever `PARSEINT` and `STRHASH` are: always below the capacity. -/
def Obligations.FieldValuesFollowTheParse : Prop :=
  ∀ (parseInt : Str → Option Int) (strHash : Str → Nat) (str : Str) (w : Nat),
    match parseInt str, fieldvalue parseInt strHash str w with
    | some n, .ok v => 0 ≤ n ∧ (v : Int) = n ∧ v < 32 ^ w
    | some n, .raise f => (32 ^ w : Int) ≤ n ∧ f = .valueOutOfRange
    | some n, .refuse _ => n < 0
    | none, .ok v => v = strHash str % 32 ^ w ∧ v < 32 ^ w
    | none, .raise _ => False
    | none, .refuse _ => False

/-- R106: `generateSequence` draws a value below 32^4 and issues no request: the block's ports are untouched, and so is
everything but the model's draw counter (log entry 9). The statement holds for every draw. -/
def Obligations.GenerateSequenceDrawsBelowTheCapacity : Prop :=
  ∀ s : State, s.cfg.wellFormed = true → (generateSequence s).1 < 1048576 ∧
    (generateSequence s).2.requests = s.requests ∧ (generateSequence s).2.response = s.response ∧
    (generateSequence s).2.cfg = s.cfg ∧ (generateSequence s).2.draws ≠ s.draws

/-! ## The demultiplexer (spec/43_decomposer.md) -/

/-- R115: `DECODE` tests the length, then alphabet and checksum, then the date, and answers the record of the seven
members. -/
def Obligations.DecodeChecksThenReadsTheFields : Prop :=
  opRow .decode 0x11 .s .r ∧
  ∀ (s : State) (str : Str), s.cfg.wellFormed = true →
    let t := normStr s.cfg str
    let out := exec (.decode str) s
    let good := (∀ ch ∈ t, ch ∈ s.cfg.alphabet) ∧
      t.drop 22 = digits s.cfg (crc10 s.cfg (symbolValues s.cfg (t.take 22))).toNat 2
    let dw := value s.cfg ((t.drop 5).take 5)
    let dated := datecheck (dw / 10000) (dw / 100 % 100) (dw % 100) = true
    (t.length ≠ 24 → out = .next (s.raise .invalidLength)) ∧
    (t.length = 24 → ¬ good → out = .next (s.raise .invalidChecksum)) ∧
    (t.length = 24 → good → ¬ dated → out = .next (s.raise .invalidDate)) ∧
    (t.length = 24 → good → dated → ∃ rec : Record, out = .next (s.answerOk (.r rec)) ∧
      rec.ev.toNat = value s.cfg (t.take 5) ∧ rec.y.toNat = dw / 10000 ∧ rec.m.toNat = dw / 100 % 100 ∧
      rec.d.toNat = dw % 100 ∧ rec.cat.toNat = value s.cfg ((t.drop 10).take 3) ∧
      rec.seat.toNat = value s.cfg ((t.drop 13).take 5) ∧ rec.seq.toNat = value s.cfg ((t.drop 18).take 4) ∧
      rec.id = t ∧ rec.cs = t.drop 22)

/-- R30, R116: a `DECODE` ends at stage 7 with a record or at the first failing stage with that stage's status; stages 1,
4 and 5 never end it, so `DecodeFailure` is unreachable; a stage is reached only when the earlier ones passed. -/
def Obligations.DecodeEndsAtTheFirstFailingStage : Prop :=
  ∀ (c : Config) (str : Str), c.wellFormed = true →
    let t := normStr c str
    let dw := value c ((t.drop 5).take 5)
    let dated := datecheck (dw / 10000) (dw / 100 % 100) (dw % 100)
    match decodeRun c str with
    | (n, .ok _) => n = 7 ∧ t.length = 24 ∧ checksumGood c t = true ∧ dated = true
    | (n, .raise f) => (n = 2 ∧ f = .invalidLength ∧ t.length ≠ 24) ∨
      (n = 3 ∧ f = .invalidChecksum ∧ t.length = 24 ∧ checksumGood c t = false) ∨
      (n = 6 ∧ f = .invalidDate ∧ t.length = 24 ∧ checksumGood c t = true ∧ dated = false)
    | (_, .refuse _) => False

/-- R118, which the spec marks as general knowledge (K5, log entry 10): a day exists exactly by the month lengths and the
leap-year rule of the Gregorian calendar. -/
def Obligations.DaysOfTheGregorianCalendar : Prop :=
  ∀ y m d : Nat, isdate y m d = true ↔
    1 ≤ d ∧ ((m ∈ [1, 3, 5, 7, 8, 10, 12] ∧ d ≤ 31) ∨ (m ∈ [4, 6, 9, 11] ∧ d ≤ 30) ∨
      (m = 2 ∧ (d ≤ 28 ∨ (d = 29 ∧ (400 ∣ y ∨ (4 ∣ y ∧ ¬ 100 ∣ y))))))

/-- R117: the date check is the range check and the test that a calendar date made of the three numbers gives them back.
That the making carries the days a month does not have into the next month is marked by the spec as general knowledge (K6,
log entry 10). -/
def Obligations.DatecheckIsRangeAndRederivation : Prop :=
  ∀ y m d : Nat, datecheck y m d = true ↔
    (1970 ≤ y ∧ y ≤ 2100 ∧ 1 ≤ m ∧ m ≤ 12 ∧ 1 ≤ d ∧ d ≤ 31) ∧
      (if d ≤ dim y m then (y, m, d) else (if m = 12 then (y + 1, 1, d - dim y m) else (y, m + 1, d - dim y m)))
        = (y, m, d)

/-- R121: `SPLIT` answers the segments of the normalized operand, untested, or `InvalidLength`. -/
def Obligations.SplitCutsAtTheOffsets : Prop :=
  opRow .split 0x15 .s .g ∧
  ∀ (s : State) (str : Str), s.cfg.wellFormed = true →
    let t := normStr s.cfg str
    (t.length ≠ 24 → exec (.split str) s = .next (s.raise .invalidLength)) ∧
    (t.length = 24 → ∃ g : Segments, exec (.split str) s = .next (s.answerOk (.g g)) ∧
      g.seg0 ++ g.seg1 ++ g.seg2 ++ g.seg3 ++ g.seg4 ++ g.seg5 = t ∧ g.seg0.length = 5 ∧ g.seg1.length = 5 ∧
      g.seg2.length = 3 ∧ g.seg3.length = 5 ∧ g.seg4.length = 4 ∧ g.seg5.length = 2)

/-- R122: `ISVF` is true exactly of a normalized operand of 24 symbols with its checksum; that this is when `NORM` leaves 24
characters on each of which `ISVC` is true and `VALIDATE` is true is R65's identity, which the spec marks as derived; and
`DECODE` answers `OK` exactly when `ISVF` is true and the date word in characters 5 to 9 passes the date check. -/
def Obligations.IsvfIsLengthAlphabetAndChecksum : Prop :=
  opRow .isvf 0x14 .s .b ∧
  ∀ (s : State) (str : Str), s.cfg.wellFormed = true →
    let t := normStr s.cfg str
    let dw := value s.cfg ((t.drop 5).take 5)
    ∃ b : Bool, exec (.isvf str) s = .next (s.answerOk (.b b)) ∧
      (b = true ↔ t.length = 24 ∧ (∀ ch ∈ t, ch ∈ s.cfg.alphabet) ∧
        t.drop 22 = digits s.cfg (crc10 s.cfg (symbolValues s.cfg (t.take 22))).toNat 2) ∧
      (b = true ↔ t.length = 24 ∧ (∀ ch ∈ t, exec (.isvc ch) s = .next (s.answerOk (.b true))) ∧
        exec (.validate t) s = .next (s.answerOk (.b true))) ∧
      ((∃ rec, exec (.decode str) s = .next (s.answerOk (.r rec))) ↔
        b = true ∧ datecheck (dw / 10000) (dw / 100 % 100) (dw % 100) = true)

/-- R123, which the spec derives from R100, R115 and R77: composing and decoding gives every field back. That a sequence from
32^4 on comes back modulo 32^4 is the spec's own reading (C7 of spec/90_conflicts.md). -/
def Obligations.DecodeOfComposeGivesTheFieldsBack : Prop :=
  ∀ (s : State) (ev y m d cat seat : Nat) (seq : Int), s.cfg.wellFormed = true → ev < 32 ^ 5 → cat < 32 ^ 3 →
    seat < 32 ^ 5 → isdate y m d = true → 1970 ≤ y → y ≤ 2100 → 0 ≤ seq →
    ∃ (code : Str) (rec : Record), exec (.compose ev y m d cat seat seq) s = .next (s.answerOk (.s code)) ∧
      exec (.decode code) s = .next (s.answerOk (.r rec)) ∧ rec.ev.toNat = ev ∧ rec.y.toNat = y ∧
      rec.m.toNat = m ∧ rec.d.toNat = d ∧ rec.cat.toNat = cat ∧ rec.seat.toNat = seat ∧
      rec.seq.toNat = seq.toNat % 32 ^ 4 ∧ rec.id = code

/-- R124: every change of one symbol of an accepted code to another symbol is answered `InvalidChecksum`, at every one of
the 24 positions. Stated of any typed strings by their normalizations. The source promises the data symbols only; positions
22 and 23 are the spec's derivation in R124. -/
def Obligations.TamperedCodesAreInvalidChecksum : Prop :=
  ∀ (s : State) (str str' : Str) (rec : Record) (k : Nat) (ch : Nat), s.cfg.wellFormed = true →
    exec (.decode str) s = .next (s.answerOk (.r rec)) → k < 24 → ch ∈ s.cfg.alphabet →
    (normStr s.cfg str)[k]? ≠ some ch → normStr s.cfg str' = (normStr s.cfg str).set k ch →
    exec (.decode str') s = .next (s.raise .invalidChecksum)

/-- R158: a separator put anywhere, another case, or a confusable in place of its symbol is the same code: `DECODE`,
`SPLIT`, `ISVF`, `VALIDATE`, `DEC`, `CRC` and `NORM` answer alike. -/
def Obligations.EquivalentSpellingsAreAnsweredAlike : Prop :=
  ∀ (s : State) (pre post : Str) (ch ch' : Nat), s.cfg.wellFormed = true →
    let same := fun x y : Str =>
      exec (.decode x) s = exec (.decode y) s ∧ exec (.split x) s = exec (.split y) s ∧
      exec (.isvf x) s = exec (.isvf y) s ∧ exec (.validate x) s = exec (.validate y) s ∧
      exec (.dec x) s = exec (.dec y) s ∧ exec (.crc x) s = exec (.crc y) s ∧ exec (.norm x) s = exec (.norm y) s
    (ch ∈ s.cfg.separators → same (pre ++ ch :: post) (pre ++ post)) ∧
    (upper ch = upper ch' → same (pre ++ ch :: post) (pre ++ ch' :: post)) ∧
    ((ch, ch') ∈ s.cfg.confuse → same (pre ++ ch :: post) (pre ++ ch' :: post))

/-! ## Beside the others -/

/-- R39: the codes 0x80 to 0xFF are inert: `upper` leaves them unchanged, every
membership test on them is false, and `NORM` passes them through wherever they stand. That a well-formed configuration has
none of them as a separator or a key is the reading of log entry 16. -/
def Obligations.HighCodesAreInert : Prop :=
  ∀ (s : State) (ch : Nat) (pre post : Str), s.cfg.wellFormed = true → 0x80 ≤ ch → ch ≤ 0xFF →
    upper ch = ch ∧ ch ∉ s.cfg.alphabet ∧ ch ∉ s.cfg.separators ∧ (∀ v, (ch, v) ∉ s.cfg.confuse) ∧
    exec (.isvc ch) s = .next (s.answerOk (.b false)) ∧
    ∃ t u : Str, exec (.norm pre) s = .next (s.answerOk (.s t)) ∧ exec (.norm post) s = .next (s.answerOk (.s u)) ∧
      exec (.norm (pre ++ ch :: post)) s = .next (s.answerOk (.s (t ++ ch :: u)))

/-- R104: `generate` tests emptiness, then the sign of the sequence, then takes the three field values in the order
written, the first that fails or is refused deciding; and its outcome is then that of one `COMPOSE`. -/
def Obligations.GenerateIsItsFrontEndAndOneCompose : Prop :=
  ∀ (parseInt : Str → Option Int) (strHash : Str → Nat) (s : State) (eventID : Str) (y m d : Nat)
    (categoryID seatID : Str) (seq : Int), s.cfg.wellFormed = true →
    let out := generate parseInt strHash s.cfg eventID y m d categoryID seatID seq
    let field := fieldvalue parseInt strHash
    let ends := fun a : Answer Nat => (∀ f, a = .raise f → out = .raise f) ∧ ∀ q, a = .refuse q → out = .refuse q
    (eventID = [] ∨ categoryID = [] ∨ seatID = [] → out = .raise .invalidInput) ∧
    (seq < 0 → out = .raise .invalidInput) ∧
    (eventID ≠ [] → categoryID ≠ [] → seatID ≠ [] → 0 ≤ seq →
      ends (field eventID 5) ∧ ∀ ev, field eventID 5 = .ok ev →
      ends (field categoryID 3) ∧ ∀ cat, field categoryID 3 = .ok cat →
      ends (field seatID 5) ∧ ∀ seat, field seatID 5 = .ok seat →
      let run := exec (.compose ev y m d cat seat seq) s
      (∀ code, out = .ok code ↔ run = .next (s.answerOk (.s code))) ∧
      (∀ f, out = .raise f ↔ run = .next (s.raise f)) ∧ (∀ q, out = .refuse q ↔ run = .refused q))
end

