-- ==== Sys2Proof/Laws/Bits.lean ====
section
/-! SUPPORT. Bit strings: `bitsNat` undoes `natBits`, `takeChars` undoes `putChars`, `takeFixed` undoes a field, `signedOf`
undoes `intBits`; each at any width. -/

namespace Sys2Proof

@[simp] theorem natBits_length (w n : Nat) : (natBits w n).length = w := by
  induction w with
  | zero => rfl
  | succ w ih => simp [natBits, ih]

theorem bitsNat_foldl (bs : Bits) (n : Nat) :
    bs.foldl (fun n b => 2 * n + b.toNat) n = n * 2 ^ bs.length + bitsNat bs := by
  induction bs generalizing n with
  | nil => simp [bitsNat]
  | cons b bs ih =>
    simp only [bitsNat, List.foldl_cons, List.length_cons] at *
    rw [ih, ih (2 * 0 + b.toNat)]
    ring

@[simp] theorem bitsNat_nil : bitsNat [] = 0 := rfl

theorem bitsNat_cons (b : Bool) (bs : Bits) : bitsNat (b :: bs) = b.toNat * 2 ^ bs.length + bitsNat bs := by
  have := bitsNat_foldl bs (2 * 0 + b.toNat)
  simpa [bitsNat] using this

theorem bitsNat_append (as bs : Bits) : bitsNat (as ++ bs) = bitsNat as * 2 ^ bs.length + bitsNat bs := by
  rw [bitsNat, List.foldl_append, bitsNat_foldl]
  rfl

theorem bitsNat_natBits (w n : Nat) : bitsNat (natBits w n) = n % 2 ^ w := by
  induction w with
  | zero => simp [natBits, Nat.mod_one]
  | succ w ih =>
    rw [natBits, bitsNat_cons, ih, natBits_length, pow_succ, Nat.mod_mul, Nat.testBit_eq_decide_div_mod_eq]
    rcases Nat.mod_two_eq_zero_or_one (n / 2 ^ w) with h | h <;> simp [h, Nat.add_comm]

/-- A number that fits is read back from its field. -/
theorem bitsNat_natBits_of_lt {w n : Nat} (h : n < 2 ^ w) : bitsNat (natBits w n) = n := by
  rw [bitsNat_natBits, Nat.mod_eq_of_lt h]

theorem bitsNat_lt (bs : Bits) : bitsNat bs < 2 ^ bs.length := by
  induction bs with
  | nil => simp
  | cons b bs ih =>
    rw [bitsNat_cons, List.length_cons, pow_succ]
    have : b.toNat ≤ 1 := by cases b <;> simp
    nlinarith

theorem takeFixed_natBits {w n : Nat} (h : n < 2 ^ w) : takeFixed w (natBits w n) = some n := by
  simp [takeFixed, bitsNat_natBits_of_lt h]

theorem natBits_bitsNat (bs : Bits) : natBits bs.length (bitsNat bs) = bs := by
  induction bs with
  | nil => rfl
  | cons b bs ih =>
    have hlt := bitsNat_lt bs
    have low : ∀ w, w ≤ bs.length → natBits w (b.toNat * 2 ^ bs.length + bitsNat bs) = natBits w (bitsNat bs) := by
      intro w hw
      induction w with
      | zero => rfl
      | succ w ihw =>
        rw [natBits, natBits, ihw (by omega), Nat.mul_comm, Nat.testBit_two_pow_mul_add _ hlt]
        simp [show w < bs.length by omega]
    rw [List.length_cons, natBits, bitsNat_cons, low _ le_rfl, ih, Nat.mul_comm,
      Nat.testBit_two_pow_mul_add _ hlt]
    cases b <;> simp

/-- The fields of two bit vectors, one after the other, are the field of their concatenation. -/
theorem natBits_toNat_append {w v : Nat} (x : BitVec w) (y : BitVec v) :
    natBits w x.toNat ++ natBits v y.toNat = natBits (w + v) (x ++ y).toNat := by
  have h := natBits_bitsNat (natBits w x.toNat ++ natBits v y.toNat)
  rw [bitsNat_append, bitsNat_natBits_of_lt x.isLt, bitsNat_natBits_of_lt y.isLt, List.length_append, natBits_length,
    natBits_length] at h
  rw [← h, BitVec.toNat_append, Nat.shiftLeft_eq, Nat.mul_comm,
    ← Nat.two_pow_add_eq_or_of_lt y.isLt]

/-- What `takeFixed` reads is the number that fits and whose bits are the payload. -/
theorem takeFixed_eq_some {w n : Nat} {p : Bits} : takeFixed w p = some n ↔ n < 2 ^ w ∧ p = natBits w n := by
  constructor
  · intro h
    unfold takeFixed at h
    split at h
    · rename_i hl
      obtain rfl := Option.some.inj h
      subst hl
      exact ⟨bitsNat_lt p, (natBits_bitsNat p).symm⟩
    · cases h
  · rintro ⟨hn, rfl⟩
    exact takeFixed_natBits hn

theorem takeFixed_isSome (w : Nat) (p : Bits) : (takeFixed w p).isSome = (p.length == w) := by
  unfold takeFixed
  split <;> simp_all

/-! ## Characters -/

@[simp] theorem putChars_nil (w : Nat) : putChars w [] = [] := rfl

theorem putChars_cons (w : Nat) (ch : Nat) (s : Str) : putChars w (ch :: s) = natBits w ch ++ putChars w s := rfl

theorem putChars_append (w : Nat) (s t : Str) : putChars w (s ++ t) = putChars w s ++ putChars w t := by
  simp [putChars]

@[simp] theorem putChars_length (w : Nat) (s : Str) : (putChars w s).length = w * s.length := by
  induction s with
  | nil => rfl
  | cons ch s ih => simp [putChars_cons, ih]; ring

theorem takeGroups_length (w n : Nat) (p : Bits) : (takeGroups w n p).length = n := by
  induction n generalizing p with
  | zero => rfl
  | succ n ih => simp [takeGroups, ih]

/-- Groups are read back from the characters that make them. -/
theorem takeGroups_putChars {w : Nat} {s : Str} (h : ∀ ch ∈ s, ch < 2 ^ w) (p : Bits) :
    takeGroups w s.length (putChars w s ++ p) = s := by
  induction s with
  | nil => rfl
  | cons ch s ih =>
    rw [List.length_cons, takeGroups, putChars_cons, List.append_assoc, List.take_left' (by simp),
      List.drop_left' (by simp), bitsNat_natBits_of_lt (h ch (by simp)), ih fun a ha => h a (by simp [ha])]

/-- A string whose characters fit is read back from its payload. -/
theorem takeChars_putChars {w : Nat} (hw : 0 < w) {s : Str} (h : ∀ ch ∈ s, ch < 2 ^ w) :
    takeChars w (putChars w s) = some s := by
  have := takeGroups_putChars h []
  rw [List.append_nil] at this
  simp [takeChars, Nat.mul_div_cancel_left _ hw, this]

/-- The bits of the groups are the payload. -/
theorem putChars_takeGroups {w n : Nat} {p : Bits} (h : p.length = n * w) : putChars w (takeGroups w n p) = p := by
  induction n generalizing p with
  | zero => simp_all [takeGroups, putChars]
  | succ n ih =>
    rw [Nat.add_mul, Nat.one_mul] at h
    have hl : (p.take w).length = w := by simp; omega
    have := natBits_bitsNat (p.take w)
    rw [hl] at this
    rw [takeGroups, putChars_cons, ih (by simp; omega), this, List.take_append_drop]

theorem takeGroups_fit {w n : Nat} {p : Bits} : ∀ ch ∈ takeGroups w n p, ch < 2 ^ w := by
  induction n generalizing p with
  | zero => simp [takeGroups]
  | succ n ih =>
    intro ch hch
    rw [takeGroups, List.mem_cons] at hch
    rcases hch with rfl | hch
    · exact (bitsNat_lt _).trans_le (Nat.pow_le_pow_right (by norm_num) (by simp))
    · exact ih ch hch

/-- What `takeChars` reads is the string whose characters fit and whose bits are the payload. -/
theorem takeChars_eq_some {w : Nat} (hw : 0 < w) {p : Bits} {s : Str} :
    takeChars w p = some s ↔ (∀ ch ∈ s, ch < 2 ^ w) ∧ p = putChars w s := by
  constructor
  · intro h
    unfold takeChars at h
    split at h
    · rename_i hm
      obtain rfl := Option.some.inj h
      exact ⟨takeGroups_fit, (putChars_takeGroups (Nat.div_mul_cancel (Nat.dvd_of_mod_eq_zero hm)).symm).symm⟩
    · cases h
  · rintro ⟨hs, rfl⟩
    exact takeChars_putChars hw hs

/-- `takeChars` reads exactly the payloads of a whole number of characters. -/
theorem takeChars_isSome (w : Nat) (p : Bits) : (takeChars w p).isSome = (p.length % w == 0) := by
  unfold takeChars
  split <;> simp_all

/-! ## Signed numbers -/

@[simp] theorem intBits_length (w : Nat) (v : Int) : (intBits w v).length = w := natBits_length _ _

/-- A signed number that fits is read back from its field. -/
theorem signedOf_intBits {w : Nat} {v : Int} (h : intFits w v = true) : signedOf w (bitsNat (intBits w v)) = v := by
  simp only [intFits, Bool.and_eq_true, decide_eq_true_eq] at h
  have hp : (0 : Int) < 2 ^ w := by positivity
  have hcast : ((2 ^ w : Nat) : Int) = 2 ^ w := by push_cast; rfl
  unfold intBits
  rw [bitsNat_natBits_of_lt (by have := Int.emod_lt_of_pos v hp; have := Int.emod_nonneg v hp.ne'; omega)]
  unfold signedOf
  rcases lt_or_ge v 0 with hv | hv
  · have e : v % 2 ^ w = v + 2 ^ w := by
      rw [← Int.add_emod_right, Int.emod_eq_of_lt (by omega) (by omega)]
    rw [e]
    split_ifs <;> omega
  · have e : v % 2 ^ w = v := Int.emod_eq_of_lt hv (by omega)
    rw [e]
    split_ifs <;> omega

/-- What a field of `w` bits spells fits, and its bits are the field. -/
theorem intBits_signedOf {w n : Nat} (h : n < 2 ^ w) :
    intFits w (signedOf w n) = true ∧ intBits w (signedOf w n) = natBits w n := by
  have hcast : ((2 ^ w : Nat) : Int) = 2 ^ w := by push_cast; rfl
  have fits : ∀ v : Int, intFits w v = true ↔ -2 ^ w ≤ 2 * v ∧ 2 * v < 2 ^ w := fun v => by simp [intFits]
  unfold signedOf
  split_ifs with hn
  · exact ⟨(fits _).mpr (by omega), by rw [intBits, Int.emod_eq_of_lt (by omega) (by omega)]; simp⟩
  · refine ⟨(fits _).mpr (by omega), ?_⟩
    rw [intBits, Int.sub_emod_right, Int.emod_eq_of_lt (by omega) (by omega)]
    simp

end Sys2Proof
end

