-- ==== Sys2Proof/Laws/Operands.lean ====
section
/-! SUPPORT. What `CONFIG_WF` gives, and the laws of symbols, digits, values and normalization that rest on it. -/

namespace Sys2Proof.Machine

/-! ## `CONFIG_WF`, item by item -/

/-- What a well-formed configuration is, as a list of propositions: R8, and what stands beside it. -/
structure ConfigFacts (c : Config) : Prop where
  length   : c.alphabet.length = 32
  nodup    : c.alphabet.Nodup
  tenDigits : ∀ ch ∈ asciiDigits, ch ∈ c.alphabet
  classes  : ∀ ch ∈ c.alphabet, ch ∈ asciiDigits ∨ isUpperLetter ch = true
  notSep   : ∀ ch ∈ c.alphabet, ch ∉ c.separators
  notKey   : ∀ ch ∈ c.alphabet, ch ∉ c.confuse.map Prod.fst
  mapped   : ∀ kv ∈ c.confuse, kv.2 ∈ c.alphabet ∧ isLowerLetter kv.1 = false ∧ kv.1 ∉ c.separators
  sepUpper : ∀ ch ∈ c.separators, isLowerLetter ch = false
  odd      : c.crcPoly.getLsbD 0 = true
  keys     : (c.confuse.map Prod.fst).Nodup
  symFits  : ∀ ch ∈ c.alphabet, ch < 2 ^ c.widths.charW
  sepFits  : ∀ ch ∈ c.separators, ch < 2 ^ c.widths.charW
  keyFits  : ∀ ch ∈ c.confuse.map Prod.fst, ch < 2 ^ c.widths.charW
  sepLow   : ∀ ch ∈ c.separators, isHighCode ch = false
  keyLow   : ∀ ch ∈ c.confuse.map Prod.fst, isHighCode ch = false

theorem configFacts_iff (c : Config) : c.wellFormed = true ↔ ConfigFacts c := by
  unfold Config.wellFormed Config.configWF Config.charactersFit Config.highCodesInert Config.alphabetDistinct
    Config.alphabetDigitsAndLetters Config.alphabetApart strFits charFits
    Config.confuseOntoSymbols Config.separatorsUpper Config.polyOdd Config.confuseIsMap
  simp only [Bool.and_eq_true, beq_iff_eq, decide_eq_true_eq, List.all_eq_true,
    Bool.or_eq_true, Bool.not_eq_true', List.contains_eq_mem, decide_eq_false_iff_not, and_assoc]
  constructor
  · rintro ⟨h1, h2, h3, h4, h5, h6, h7, h8, h9, ha, hp, hf, hs, hk⟩
    exact ⟨h1, h2, h3, h4, fun ch h => (h5 ch h).1, fun ch h => (h5 ch h).2, h6, h7, h8, h9, ha, hp, hf, hs, hk⟩
  · rintro ⟨h1, h2, h3, h4, h5, h6, h7, h8, h9, h10, ha, hp, hf, hs, hk⟩
    exact ⟨h1, h2, h3, h4, fun ch h => ⟨h5 ch h, h6 ch h⟩, h7, h8, h9, h10, ha, hp, hf, hs, hk⟩

theorem upper_of_not_lower {ch : Nat} (h : isLowerLetter ch = false) : upper ch = ch := by
  simp [upper, h]

theorem upper_not_lower (ch : Nat) : isLowerLetter (upper ch) = false := by
  unfold upper
  split
  · simp_all [isLowerLetter]
    omega
  · simp_all

theorem upper_le (ch : Nat) : upper ch ≤ ch := by
  unfold upper
  split <;> omega

@[simp] theorem upper_upper (ch : Nat) : upper (upper ch) = upper ch := upper_of_not_lower (upper_not_lower ch)

theorem asciiDigits_not_lower : ∀ ch ∈ asciiDigits, isLowerLetter ch = false := by decide

theorem upperLetter_not_lower : ∀ ch : Nat, isUpperLetter ch = true → isLowerLetter ch = false := by
  intro ch h
  simp only [isUpperLetter, isLowerLetter, Bool.and_eq_true, decide_eq_true_eq, Bool.and_eq_false_iff,
    decide_eq_false_iff_not] at *
  omega

theorem asciiDigits_not_dash : ∀ ch ∈ asciiDigits, ch ≠ dash := by decide

theorem upperLetter_not_dash : ∀ ch : Nat, isUpperLetter ch = true → ch ≠ dash := by
  intro ch h
  simp only [isUpperLetter, dash, Bool.and_eq_true, decide_eq_true_eq] at *
  omega

@[simp] theorem inA_iff (c : Config) (ch : Nat) : inA c ch = true ↔ ch ∈ c.alphabet := by simp [inA]

@[simp] theorem issep_iff (c : Config) (ch : Nat) : issep c ch = true ↔ ch ∈ c.separators := by simp [issep]

theorem allSymbols_iff (c : Config) (t : Str) : allSymbols c t = true ↔ ∀ ch ∈ t, ch ∈ c.alphabet := by
  simp [allSymbols]

@[simp] theorem allSymbols_nil (c : Config) : allSymbols c [] = true := rfl

@[simp] theorem allSymbols_cons (c : Config) (ch : Nat) (t : Str) :
    allSymbols c (ch :: t) = (inA c ch && allSymbols c t) := rfl

@[simp] theorem allSymbols_append (c : Config) (t u : Str) :
    allSymbols c (t ++ u) = (allSymbols c t && allSymbols c u) := by
  simp [allSymbols]

theorem allSymbols_take {c : Config} {t : Str} (h : allSymbols c t = true) (n : Nat) :
    allSymbols c (t.take n) = true := by
  rw [allSymbols_iff] at *
  exact fun ch hch => h ch (List.mem_of_mem_take hch)

theorem allSymbols_drop {c : Config} {t : Str} (h : allSymbols c t = true) (n : Nat) :
    allSymbols c (t.drop n) = true := by
  rw [allSymbols_iff] at *
  exact fun ch hch => h ch (List.mem_of_mem_drop hch)

theorem ConfigFacts.symbol_not_lower {c : Config} (h : ConfigFacts c) {ch : Nat} (hch : ch ∈ c.alphabet) :
    isLowerLetter ch = false :=
  (h.classes ch hch).elim (asciiDigits_not_lower ch) (upperLetter_not_lower ch)

theorem ConfigFacts.symbol_not_dash {c : Config} (h : ConfigFacts c) {ch : Nat} (hch : ch ∈ c.alphabet) :
    ch ≠ dash :=
  (h.classes ch hch).elim (asciiDigits_not_dash ch) (upperLetter_not_dash ch)

/-! ## Characters fit -/

theorem strFits_iff (c : Config) (t : Str) : strFits c t = true ↔ ∀ ch ∈ t, ch < 2 ^ c.widths.charW := by
  simp [strFits, charFits]

@[simp] theorem strFits_nil (c : Config) : strFits c [] = true := rfl

@[simp] theorem strFits_cons (c : Config) (ch : Nat) (t : Str) : strFits c (ch :: t) = (charFits c ch && strFits c t) := rfl

@[simp] theorem strFits_append (c : Config) (t u : Str) : strFits c (t ++ u) = (strFits c t && strFits c u) := by
  simp [strFits]

theorem strFits_of_subset {c : Config} {t u : Str} (h : strFits c t = true) (hu : ∀ ch ∈ u, ch ∈ t) :
    strFits c u = true := by
  rw [strFits_iff] at *
  exact fun ch hch => h ch (hu ch hch)

theorem ConfigFacts.strFits_symbols {c : Config} (h : ConfigFacts c) {t : Str} (ht : allSymbols c t = true) :
    strFits c t = true := by
  rw [strFits_iff]
  exact fun ch hch => h.symFits ch ((allSymbols_iff c t).mp ht ch hch)

/-- An ASCII code fits: the alphabet has 22 letters above 0x40, so `CHAR_W` is at least 7. -/
theorem ConfigFacts.charW {c : Config} (h : ConfigFacts c) : 7 ≤ c.widths.charW := by
  have hsome : ∃ ch ∈ c.alphabet, ch ∉ asciiDigits := by
    by_contra hc
    push Not at hc
    have := (h.nodup.subperm hc).length_le
    rw [h.length] at this
    exact absurd this (by decide)
  obtain ⟨ch, hch, hd⟩ := hsome
  have hu := (h.classes ch hch).resolve_left hd
  have hf := h.symFits ch hch
  simp only [isUpperLetter, Bool.and_eq_true, decide_eq_true_eq] at hu
  by_contra hc
  have : 2 ^ c.widths.charW ≤ 2 ^ 6 := Nat.pow_le_pow_right (by norm_num) (by omega)
  omega

/-! ## Symbols and their values -/

theorem ConfigFacts.sym_mem {c : Config} (h : ConfigFacts c) {v : Nat} (hv : v < 32) : sym c v ∈ c.alphabet := by
  have hv' : v < c.alphabet.length := by rw [h.length]; exact hv
  simp [sym, hv']

theorem ConfigFacts.val_lt {c : Config} (h : ConfigFacts c) {ch : Nat} (hch : ch ∈ c.alphabet) : val c ch < 32 := by
  rw [← h.length]
  exact List.idxOf_lt_length_of_mem hch

theorem ConfigFacts.sym_val {c : Config} {ch : Nat} (hch : ch ∈ c.alphabet) : sym c (val c ch) = ch := by
  have hlt : c.alphabet.idxOf ch < c.alphabet.length := List.idxOf_lt_length_of_mem hch
  simp [sym, val, hlt]

theorem ConfigFacts.val_sym {c : Config} (h : ConfigFacts c) {v : Nat} (hv : v < 32) : val c (sym c v) = v := by
  have hv' : v < c.alphabet.length := by rw [h.length]; exact hv
  simp only [sym, val, List.getD_eq_getElem?_getD, List.getElem?_eq_getElem hv', Option.getD_some]
  exact h.nodup.idxOf_getElem v hv'

theorem ConfigFacts.val_injective {c : Config} {a b : Nat} (ha : a ∈ c.alphabet) (hb : b ∈ c.alphabet)
    (hab : val c a = val c b) : a = b := by
  rw [← ConfigFacts.sym_val ha, ← ConfigFacts.sym_val hb, hab]

/-! ## `digits` and `value` -/

@[simp] theorem digits_length (c : Config) (v w : Nat) : (digits c v w).length = w := by simp [digits]

@[simp] theorem digits_zero (c : Config) (v : Nat) : digits c v 0 = [] := rfl

theorem digits_getElem? (c : Config) (v w : Nat) {i : Nat} (hi : i < w) :
    (digits c v w)[i]? = some (sym c (v / 32 ^ (w - 1 - i) % 32)) := by
  simp [digits, hi]

/-- The last symbol holds the low digit. -/
theorem digits_succ (c : Config) (v w : Nat) : digits c v (w + 1) = digits c (v / 32) w ++ [sym c (v % 32)] := by
  simp only [digits, List.range_succ, List.map_append, List.map_cons, List.map_nil]
  congr 1
  · apply List.map_congr_left
    intro i hi
    rw [List.mem_range] at hi
    rw [Nat.div_div_eq_div_mul, ← pow_succ']
    congr 4
    omega
  · simp

theorem ConfigFacts.digits_allSymbols {c : Config} (h : ConfigFacts c) (v w : Nat) :
    allSymbols c (digits c v w) = true := by
  rw [allSymbols_iff]
  intro ch hch
  obtain ⟨i, -, rfl⟩ := List.mem_map.mp hch
  exact h.sym_mem (Nat.mod_lt _ (by norm_num))

@[simp] theorem value_nil (c : Config) : value c [] = 0 := rfl

theorem value_concat (c : Config) (t : Str) (ch : Nat) : value c (t ++ [ch]) = value c t * 32 + val c ch := by
  simp [value]

theorem ConfigFacts.value_digits {c : Config} (h : ConfigFacts c) {v w : Nat} (hv : v < 32 ^ w) :
    value c (digits c v w) = v := by
  induction w generalizing v with
  | zero => simp at hv; simp [hv]
  | succ w ih =>
    rw [digits_succ, value_concat, ih (by rw [Nat.div_lt_iff_lt_mul (by norm_num)]; rwa [pow_succ] at hv),
      h.val_sym (Nat.mod_lt _ (by norm_num))]
    omega

theorem ConfigFacts.value_lt {c : Config} (h : ConfigFacts c) {t : Str} (ht : allSymbols c t = true) :
    value c t < 32 ^ t.length := by
  induction t using List.reverseRecOn with
  | nil => simp
  | append_singleton t ch ih =>
    simp only [allSymbols_append, allSymbols_cons, Bool.and_eq_true, inA_iff] at ht
    have := ih ht.1
    have := h.val_lt ht.2.1
    rw [value_concat, List.length_append, List.length_singleton, pow_succ]
    omega

theorem ConfigFacts.digits_value {c : Config} (h : ConfigFacts c) {t : Str} (ht : allSymbols c t = true) :
    digits c (value c t) t.length = t := by
  induction t using List.reverseRecOn with
  | nil => rfl
  | append_singleton t ch ih =>
    simp only [allSymbols_append, allSymbols_cons, Bool.and_eq_true, inA_iff] at ht
    have hv := h.val_lt ht.2.1
    rw [List.length_append, List.length_singleton, digits_succ, value_concat]
    have h1 : (value c t * 32 + val c ch) / 32 = value c t := by omega
    have h2 : (value c t * 32 + val c ch) % 32 = val c ch := by omega
    rw [h1, h2, ih ht.1, ConfigFacts.sym_val ht.2.1]

/-- Fields of one width are equal exactly when their values agree modulo the capacity. -/
theorem ConfigFacts.digits_injective {c : Config} (h : ConfigFacts c) {v v' w : Nat} (hv : v < 32 ^ w)
    (hv' : v' < 32 ^ w) (he : digits c v w = digits c v' w) : v = v' := by
  rw [← h.value_digits hv, he, h.value_digits hv']

/-! ## Normalization -/

@[simp] theorem normStr_nil (c : Config) : normStr c [] = [] := rfl

theorem normStr_cons (c : Config) (ch : Nat) (t : Str) : normStr c (ch :: t) = nchar c ch ++ normStr c t := rfl

@[simp] theorem normStr_append (c : Config) (t u : Str) : normStr c (t ++ u) = normStr c t ++ normStr c u := by simp [normStr]

theorem nchar_upper (c : Config) (ch : Nat) : nchar c (upper ch) = nchar c ch := by simp [nchar]

theorem remap_of_not_key {c : Config} {ch : Nat} (h : ch ∉ c.confuse.map Prod.fst) : remap c ch = ch := by
  have : c.confuse.lookup ch = none := by
    rw [List.lookup_eq_none_iff]
    intro p hp
    have : ch ≠ p.1 := fun he => h (List.mem_map.mpr ⟨p, hp, he.symm⟩)
    simpa using this
  simp [remap, this]

theorem ConfigFacts.nchar_symbol {c : Config} (h : ConfigFacts c) {ch : Nat} (hch : ch ∈ c.alphabet) :
    nchar c ch = [ch] := by
  have := h.notSep ch hch
  simp [nchar, upper_of_not_lower (h.symbol_not_lower hch), issep, this, remap_of_not_key (h.notKey ch hch)]

/-- A string of symbols is its own normalization. -/
theorem ConfigFacts.normStr_symbols {c : Config} (h : ConfigFacts c) {t : Str} (ht : allSymbols c t = true) :
    normStr c t = t := by
  induction t with
  | nil => rfl
  | cons ch t ih =>
    simp only [allSymbols_cons, Bool.and_eq_true, inA_iff] at ht
    rw [normStr_cons, h.nchar_symbol ht.1, ih ht.2]
    rfl

theorem normStr_length_le (c : Config) (t : Str) : (normStr c t).length ≤ t.length := by
  induction t with
  | nil => simp
  | cons ch t ih =>
    rw [normStr_cons, List.length_append, List.length_cons]
    have : (nchar c ch).length ≤ 1 := by unfold nchar; split <;> simp
    omega

/-- Normalizing keeps characters within `CHAR_W` bits. -/
theorem ConfigFacts.strFits_normStr {c : Config} (h : ConfigFacts c) {t : Str} (ht : strFits c t = true) :
    strFits c (normStr c t) = true := by
  rw [strFits_iff] at *
  intro ch hch
  obtain ⟨a, ha, hch⟩ := List.mem_flatMap.mp hch
  unfold nchar at hch
  split at hch
  · cases hch
  · obtain rfl := List.mem_singleton.mp hch
    unfold remap
    cases hl : c.confuse.lookup (upper a) with
    | none => exact (upper_le a).trans_lt (ht a ha)
    | some v =>
      obtain ⟨l, r, hs, -⟩ := List.lookup_eq_some_iff.mp hl
      exact h.symFits v (h.mapped (upper a, v) (by simp [hs])).1

/-! ## The segments of a code -/

/-- The segments of a string, joined, are the string. -/
theorem segments_join (t : Str) :
    (Segments.ofCode t).seg0 ++ (Segments.ofCode t).seg1 ++ (Segments.ofCode t).seg2 ++ (Segments.ofCode t).seg3 ++
      (Segments.ofCode t).seg4 ++ (Segments.ofCode t).seg5 = t := by
  simp only [Segments.ofCode]
  have h4 : (t.drop 18).take 4 ++ t.drop 22 = t.drop 18 := by
    rw [show 22 = 18 + 4 from rfl, ← List.drop_drop, List.take_append_drop]
  have h3 : (t.drop 13).take 5 ++ t.drop 18 = t.drop 13 := by
    rw [show 18 = 13 + 5 from rfl, ← List.drop_drop, List.take_append_drop]
  have h2 : (t.drop 10).take 3 ++ t.drop 13 = t.drop 10 := by
    rw [show 13 = 10 + 3 from rfl, ← List.drop_drop, List.take_append_drop]
  have h1 : (t.drop 5).take 5 ++ t.drop 10 = t.drop 5 := by
    rw [show 10 = 5 + 5 from rfl, ← List.drop_drop, List.take_append_drop]
  rw [List.append_assoc, h4, List.append_assoc, h3, List.append_assoc, h2, List.append_assoc, h1,
    List.take_append_drop]

/-- The segments of six strings of the six lengths, joined, are the strings. -/
theorem segments_ofCode_join {a b g h q k : Str} (ha : a.length = 5) (hb : b.length = 5) (hg : g.length = 3)
    (hh : h.length = 5) (hq : q.length = 4) :
    Segments.ofCode (a ++ b ++ g ++ h ++ q ++ k) = ⟨a, b, g, h, q, k⟩ := by
  simp (disch := omega) [Segments.ofCode, List.drop_append, List.drop_eq_nil_of_le, ha, hb, hg, hh]

end Sys2Proof.Machine
end

