-- ==== Sys2Proof/Laws/Generator.lean ====
section
/-! SUPPORT. The generator is linear over GF(2); a checksum is two symbols and matches its own data. -/

namespace Sys2Proof.Machine

/-! ## Linearity -/

theorem crcBit_xor (poly r r' : BitVec 10) (b b' : Bool) :
    crcBit poly (r ^^^ r') (b ^^ b') = crcBit poly r b ^^^ crcBit poly r' b' := by
  have cancel : ∀ x : BitVec 10, poly ^^^ (poly ^^^ x) = x := fun x => by rw [← BitVec.xor_assoc]; simp
  have left_comm : ∀ x y z : BitVec 10, x ^^^ (y ^^^ z) = y ^^^ (x ^^^ z) := fun x y z => by
    rw [← BitVec.xor_assoc, BitVec.xor_comm x y, BitVec.xor_assoc]
  unfold crcBit
  rw [BitVec.getLsbD_xor, BitVec.shiftLeft_xor_distrib]
  cases r.getLsbD 9 <;> cases r'.getLsbD 9 <;> cases b <;> cases b' <;>
    simp [cancel, left_comm _ poly, BitVec.xor_comm _ poly, BitVec.xor_assoc]

theorem crcStep_xor (poly r r' : BitVec 10) (v v' : BitVec 5) :
    crcStep poly (r ^^^ r') (v ^^^ v') = crcStep poly r v ^^^ crcStep poly r' v' := by
  simp only [crcStep, List.foldl_cons, List.foldl_nil, BitVec.getLsbD_xor, crcBit_xor]

/-- A bit shift cannot merge two registers when the generator has a constant term: its bit 0 shows the feedback. -/
theorem crcBit_injective {poly r r' : BitVec 10} {b : Bool} (hodd : poly.getLsbD 0 = true)
    (h : crcBit poly r b = crcBit poly r' b) : r = r' := by
  have bit : ∀ x : BitVec 10, (crcBit poly x b).getLsbD 0 = (x.getLsbD 9 ^^ b) := by
    intro x
    unfold crcBit
    split <;> simp_all
  have h9 : r.getLsbD 9 = r'.getLsbD 9 := by
    have := bit r
    rw [h, bit r'] at this
    simpa using this.symm
  have hs : r <<< 1 = r' <<< 1 := by
    unfold crcBit at h
    rw [h9] at h
    split at h
    · exact (BitVec.xor_left_inj poly).mp h
    · exact h
  apply BitVec.eq_of_getElem_eq
  intro i hi
  by_cases hi9 : i = 9
  · subst hi9
    simpa using h9
  · have := congrArg (fun x => x.getLsbD (i + 1)) hs
    simpa [BitVec.getLsbD_shiftLeft, show i + 1 < 10 by omega] using this

theorem crcStep_injective {poly r r' : BitVec 10} {v : BitVec 5} (hodd : poly.getLsbD 0 = true)
    (h : crcStep poly r v = crcStep poly r' v) : r = r' := by
  simp only [crcStep, List.foldl_cons, List.foldl_nil] at h
  exact crcBit_injective hodd (crcBit_injective hodd (crcBit_injective hodd (crcBit_injective hodd
    (crcBit_injective hodd h))))

/-! ## Registers of sequences -/

@[simp] theorem crcRegister_nil (c : Config) : crcRegister c [] = c.crcInit := rfl

theorem crcRegister_append (c : Config) (vs us : List (BitVec 5)) :
    crcRegister c (vs ++ us) = us.foldl (crcStep c.crcPoly) (crcRegister c vs) := by
  simp [crcRegister]

/-- Equal symbols after a difference keep the registers apart. -/
theorem foldl_crcStep_injective {poly r r' : BitVec 10} (hodd : poly.getLsbD 0 = true) (vs : List (BitVec 5))
    (h : vs.foldl (crcStep poly) r = vs.foldl (crcStep poly) r') : r = r' := by
  induction vs generalizing r r' with
  | nil => exact h
  | cons v vs ih => exact crcStep_injective hodd (ih h)

/-! ## Checksums -/

@[simp] theorem symbolValues_append (c : Config) (t u : Str) :
    symbolValues c (t ++ u) = symbolValues c t ++ symbolValues c u := by
  simp [symbolValues]

@[simp] theorem symbolValues_length (c : Config) (t : Str) : (symbolValues c t).length = t.length := by
  simp [symbolValues]

@[simp] theorem checksum_length (c : Config) (t : Str) : (checksum c t).length = 2 := by simp [checksum]

theorem ConfigFacts.checksum_allSymbols {c : Config} (h : ConfigFacts c) (t : Str) :
    allSymbols c (checksum c t) = true :=
  h.digits_allSymbols _ _

/-- The checksum shows the whole CRC. -/
theorem ConfigFacts.checksum_injective {c : Config} (h : ConfigFacts c) {t u : Str}
    (he : checksum c t = checksum c u) : crc10 c (symbolValues c t) = crc10 c (symbolValues c u) := by
  have lt : ∀ x : BitVec 10, x.toNat < 32 ^ 2 := fun x => by have := x.isLt; omega
  exact BitVec.eq_of_toNat_eq (h.digits_injective (lt _) (lt _) he)

/-- Data followed by its checksum is good. -/
theorem ConfigFacts.checksumGood_append {c : Config} (h : ConfigFacts c) {t : Str} (ht : allSymbols c t = true) :
    checksumGood c (t ++ checksum c t) = true := by
  have hl : (t ++ checksum c t).length - 2 = t.length := by simp
  simp [checksumGood, ht, h.checksum_allSymbols]

theorem checksumGood_iff (c : Config) (t : Str) :
    checksumGood c t = true ↔
      allSymbols c t = true ∧ t.drop (t.length - 2) = checksum c (t.take (t.length - 2)) := by
  simp [checksumGood]

end Sys2Proof.Machine
end

