-- ==== Sys2Proof/Laws/State.lean ====
section
/-! SUPPORT. One lemma per field per update of the state, so that no proof unfolds a record update. -/

namespace Sys2Proof.Machine

variable (s : State) (res : Result) (f : Failure) (r : Request)

@[simp] theorem answerOk_cfg : (s.answerOk res).cfg = s.cfg := rfl
@[simp] theorem answerOk_requests : (s.answerOk res).requests = s.requests := rfl
@[simp] theorem answerOk_response : (s.answerOk res).response = some ⟨.ok, some res⟩ := rfl
@[simp] theorem answerOk_draws : (s.answerOk res).draws = s.draws := rfl

@[simp] theorem raise_cfg : (s.raise f).cfg = s.cfg := rfl
@[simp] theorem raise_requests : (s.raise f).requests = s.requests := rfl
@[simp] theorem raise_response : (s.raise f).response = some ⟨.failed f, none⟩ := rfl
@[simp] theorem raise_draws : (s.raise f).draws = s.draws := rfl

@[simp] theorem consume_cfg : s.consume.cfg = s.cfg := rfl
@[simp] theorem consume_requests : s.consume.requests = s.requests.tail := rfl
@[simp] theorem consume_response : s.consume.response = s.response := rfl
@[simp] theorem consume_draws : s.consume.draws = s.draws := rfl

@[simp] theorem issue_cfg : (s.issue r).cfg = s.cfg := rfl
@[simp] theorem issue_requests : (s.issue r).requests = s.requests ++ [r] := rfl
@[simp] theorem issue_response : (s.issue r).response = s.response := rfl
@[simp] theorem issue_draws : (s.issue r).draws = s.draws := rfl

@[simp] theorem takeResponse_cfg : s.takeResponse.cfg = s.cfg := rfl
@[simp] theorem takeResponse_requests : s.takeResponse.requests = s.requests := rfl
@[simp] theorem takeResponse_response : s.takeResponse.response = none := rfl
@[simp] theorem takeResponse_draws : s.takeResponse.draws = s.draws := rfl

@[simp] theorem assertReset_cfg : s.assertReset.cfg = s.cfg := rfl
@[simp] theorem assertReset_requests : s.assertReset.requests = [] := rfl
@[simp] theorem assertReset_response : s.assertReset.response = none := rfl
@[simp] theorem assertReset_draws : s.assertReset.draws = s.draws := rfl

/-- Giving a response replaces the one on the port. -/
@[simp] theorem answerOk_eq_answerOk (res' : Result) : s.answerOk res = s.answerOk res' ↔ res = res' := by
  simp [State.answerOk]

@[simp] theorem raise_eq_raise (f' : Failure) : s.raise f = s.raise f' ↔ f = f' := by
  simp [State.raise]

@[simp] theorem answerOk_ne_raise : s.answerOk res ≠ s.raise f := by
  simp [State.answerOk, State.raise]

@[simp] theorem raise_ne_answerOk : s.raise f ≠ s.answerOk res := by
  simp [State.answerOk, State.raise]

end Sys2Proof.Machine
end

