-- ==== Sys2Proof/Laws/Ops.lean ====
section
/-! SUPPORT. What the shared operations can do: `Answer.bind`, `Answer.map`, and `perform`, through which every
operation ends. -/

namespace Sys2Proof.Machine

@[simp] theorem Answer.bind_ok {α β : Type} (x : α) (f : α → Answer β) : (Answer.ok x).bind f = f x := rfl
@[simp] theorem Answer.bind_raise {α β : Type} (e : Failure) (f : α → Answer β) :
    (Answer.raise e : Answer α).bind f = .raise e := rfl
@[simp] theorem Answer.bind_refuse {α β : Type} (r : Refusal) (f : α → Answer β) :
    (Answer.refuse r : Answer α).bind f = .refuse r := rfl

@[simp] theorem Answer.map_ok {α β : Type} (f : α → β) (x : α) : (Answer.ok x).map f = .ok (f x) := rfl
@[simp] theorem Answer.map_raise {α β : Type} (f : α → β) (e : Failure) :
    (Answer.raise e : Answer α).map f = .raise e := rfl
@[simp] theorem Answer.map_refuse {α β : Type} (f : α → β) (r : Refusal) :
    (Answer.refuse r : Answer α).map f = .refuse r := rfl

theorem Answer.map_eq_ok {α β : Type} {f : α → β} {a : Answer α} {y : β} :
    a.map f = .ok y ↔ ∃ x, a = .ok x ∧ f x = y := by
  cases a <;> simp

theorem Answer.map_eq_raise {α β : Type} {f : α → β} {a : Answer α} {e : Failure} :
    a.map f = .raise e ↔ a = .raise e := by
  cases a <;> simp

theorem Answer.map_eq_refuse {α β : Type} {f : α → β} {a : Answer α} {r : Refusal} :
    a.map f = .refuse r ↔ a = .refuse r := by
  cases a <;> simp

theorem perform_ok {s : State} (h : s.cfg.wellFormed = true) (res : Result) :
    perform (.ok res) s = .next (s.answerOk res) := by
  simp [perform, h]

theorem perform_raise {s : State} (h : s.cfg.wellFormed = true) (f : Failure) :
    perform (.raise f) s = .next (s.raise f) := by
  simp [perform, h]

theorem perform_refuse {s : State} (h : s.cfg.wellFormed = true) (r : Refusal) :
    perform (.refuse r) s = .refused r := by
  simp [perform, h]

theorem perform_malformed {s : State} (h : s.cfg.wellFormed = false) (a : Answer Result) :
    perform a s = .refused .configNotWellFormed := by
  simp [perform, h]

/-- Everything `perform` can do when it goes on: it gives a result or it raises a failure, and the configuration is well
formed. -/
theorem perform_next_cases {a : Answer Result} {s t : State} (h : perform a s = .next t) :
    s.cfg.wellFormed = true ∧
      ((∃ res, a = .ok res ∧ t = s.answerOk res) ∨ ∃ f, a = .raise f ∧ t = s.raise f) := by
  unfold perform at h
  split at h
  · rename_i hwf
    refine ⟨hwf, ?_⟩
    cases a <;> simp_all
  · cases h

/-- Everything `perform` can refuse. -/
theorem perform_refused_cases {a : Answer Result} {s : State} {q : Refusal} (h : perform a s = .refused q) :
    (s.cfg.wellFormed = true ∧ a = .refuse q) ∨ (s.cfg.wellFormed = false ∧ q = .configNotWellFormed) := by
  unfold perform at h
  split at h
  · rename_i hwf
    left
    cases a <;> simp_all
  · rename_i hwf
    right
    simp_all

theorem perform_eq_answerOk {a : Answer Result} {s : State} {res : Result} (hwf : s.cfg.wellFormed = true) :
    perform a s = .next (s.answerOk res) ↔ a = .ok res := by
  cases a <;> simp [perform, hwf]

theorem perform_eq_raise {a : Answer Result} {s : State} {f : Failure} (hwf : s.cfg.wellFormed = true) :
    perform a s = .next (s.raise f) ↔ a = .raise f := by
  cases a <;> simp [perform, hwf]

theorem perform_eq_refused {a : Answer Result} {s : State} {q : Refusal} (hwf : s.cfg.wellFormed = true) :
    perform a s = .refused q ↔ a = .refuse q := by
  cases a <;> simp [perform, hwf]

/-- The frame of `perform`: only the response changes. -/
theorem perform_frame {a : Answer Result} {s t : State} (h : perform a s = .next t) :
    t.cfg = s.cfg ∧ t.requests = s.requests ∧ t.draws = s.draws := by
  obtain ⟨-, ⟨res, -, rfl⟩ | ⟨f, -, rfl⟩⟩ := perform_next_cases h <;> simp

end Sys2Proof.Machine
end

