-- ==== Sys2Proof/Laws/Demultiplexer.lean ====
section
/-! SUPPORT. `DECODE` unfolded once: the seven stages as one chain of tests. -/

namespace Sys2Proof.Machine

/-- The date word of a normalized code. -/
def codeDate (c : Config) (t : Str) : Nat := value c (Segments.ofCode t).seg1

/-- The record of a normalized code. -/
def codeRecord (c : Config) (t : Str) : Record :=
  assemble
    { text := t, segs := Segments.ofCode t, ev := value c (Segments.ofCode t).seg0, date := codeDate c t,
      cat := value c (Segments.ofCode t).seg2, seat := value c (Segments.ofCode t).seg3,
      seq := value c (Segments.ofCode t).seg4 }

/-- Every segment of a string of symbols is one. -/
theorem segments_allSymbols {c : Config} {t : Str} (h : allSymbols c t = true) :
    allSymbols c (Segments.ofCode t).seg0 = true ∧ allSymbols c (Segments.ofCode t).seg1 = true ∧
      allSymbols c (Segments.ofCode t).seg2 = true ∧ allSymbols c (Segments.ofCode t).seg3 = true ∧
      allSymbols c (Segments.ofCode t).seg4 = true ∧ allSymbols c (Segments.ofCode t).seg5 = true :=
  ⟨allSymbols_take h _, allSymbols_take (allSymbols_drop h _) _, allSymbols_take (allSymbols_drop h _) _,
    allSymbols_take (allSymbols_drop h _) _, allSymbols_take (allSymbols_drop h _) _, allSymbols_drop h _⟩

/-- `DECODE` as nested tests, each with the stage number it ends at. -/
theorem decodeRun_eq (c : Config) (str : Str) :
    decodeRun c str =
      let t := normStr c str
      if t.length = 24 then
        if checksumGood c t then
          if datecheck (wordYear (codeDate c t)) (wordMonth (codeDate c t)) (wordDay (codeDate c t)) then
            (7, .ok (codeRecord c t))
          else (6, .raise .invalidDate)
        else (3, .raise .invalidChecksum)
      else (2, .raise .invalidLength) := by
  simp only [decodeRun, decodeStages, runStages, normalizeStage, lengthStage, DecodeWork.start]
  by_cases hl : (normStr c str).length = 24
  · simp only [hl, if_true, checksumStage]
    by_cases hg : checksumGood c (normStr c str) = true
    · obtain ⟨h0, h1, h2, h3, h4, -⟩ := segments_allSymbols ((checksumGood_iff c _).mp hg).1
      simp only [hg, if_true, splitStage, fieldStage, h0, h1, h2, h3, h4, Bool.and_self, dateStage]
      by_cases hd : datecheck (wordYear (codeDate c (normStr c str))) (wordMonth (codeDate c (normStr c str)))
          (wordDay (codeDate c (normStr c str))) = true
      · simp only [codeDate] at hd ⊢
        simp only [hd, if_true]
        rfl
      · simp only [codeDate] at hd ⊢
        simp only [hd, Bool.false_eq_true, if_false]
        rfl
    · simp only [hg, Bool.false_eq_true, if_false]
      rfl
  · simp only [hl, if_false]
    rfl

end Sys2Proof.Machine
end

