-- ==== Sys2Proof/Laws/Meanings.lean ====
section
/-! SUPPORT. One lemma per operation: everything it can do under a well-formed configuration, so that no later proof
unfolds a meaning. -/

namespace Sys2Proof.Machine

/-! ## Numbers and dates -/

/-- `minWidth` is the least width of at least 1 that holds a value. -/
theorem minWidth_spec (v : Nat) :
    1 ≤ minWidth v ∧ v < 32 ^ minWidth v ∧ ∀ w, 1 ≤ w → v < 32 ^ w → minWidth v ≤ w := by
  unfold minWidth
  cases h : (List.range' 1 (v.log2 + 1)).find? (fun w => v < 32 ^ w) with
  | none =>
    rw [List.find?_eq_none] at h
    have := h (v.log2 + 1) (by simp [List.mem_range'_1])
    exact absurd (decide_eq_true (Nat.lt_log2_self.trans_le (Nat.pow_le_pow_left (by norm_num) _))) this
  | some w =>
    rw [List.find?_range'_eq_some] at h
    simp only [decide_eq_true_eq, List.mem_range'_1, Bool.not_eq_true', decide_eq_false_iff_not] at h
    obtain ⟨h1, h2, h3⟩ := h
    refine ⟨h2.1, h1, fun w' hw' hv' => ?_⟩
    by_contra hc
    rw [Option.getD_some] at hc
    exact h3 w' hw' (by omega) hv'

/-- A 64-bit value takes at most 13 symbols (R72). -/
theorem minWidth_le {v : Nat} (h : v < 2 ^ 64) : minWidth v ≤ 13 :=
  (minWidth_spec v).2.2 13 (by norm_num) (by omega)

theorem isdate_bounds {y m d : Nat} (h : isdate y m d = true) : 1 ≤ m ∧ m ≤ 12 ∧ 1 ≤ d ∧ d ≤ 31 := by
  have hdim : dim y m ≤ 31 := by unfold dim; split_ifs <;> omega
  simp only [isdate, Bool.and_eq_true, decide_eq_true_eq] at h
  omega

theorem datecheck_iff (y m d : Nat) : datecheck y m d = true ↔ 1970 ≤ y ∧ y ≤ 2100 ∧ isdate y m d = true := by
  constructor
  · intro h
    simp only [datecheck, Bool.and_eq_true, decide_eq_true_eq] at h
    tauto
  · rintro ⟨h1, h2, h3⟩
    have := isdate_bounds h3
    simp only [datecheck, Bool.and_eq_true, decide_eq_true_eq]
    tauto

/-- A date word gives its year, month and day back (R53). -/
theorem dateWord_back {y m d : Nat} (hm : m ≤ 12) (hd : d ≤ 31) :
    wordYear (dateWord y m d) = y ∧ wordMonth (dateWord y m d) = m ∧ wordDay (dateWord y m d) = d := by
  unfold wordYear wordMonth wordDay dateWord
  omega

/-! ## Codes -/

theorem segments_length {t : Str} (h : t.length = 24) :
    (Segments.ofCode t).seg0.length = 5 ∧ (Segments.ofCode t).seg1.length = 5 ∧ (Segments.ofCode t).seg2.length = 3 ∧
      (Segments.ofCode t).seg3.length = 5 ∧ (Segments.ofCode t).seg4.length = 4 ∧
      (Segments.ofCode t).seg5.length = 2 := by
  simp [Segments.ofCode, h]

@[simp] theorem dataSymbols_length (c : Config) (ev dw cat seat seq : Nat) :
    (dataSymbols c ev dw cat seat seq).length = 22 := by
  simp [dataSymbols]

theorem ConfigFacts.dataSymbols_allSymbols {c : Config} (h : ConfigFacts c) (ev dw cat seat seq : Nat) :
    allSymbols c (dataSymbols c ev dw cat seat seq) = true := by
  simp [dataSymbols, h.digits_allSymbols]

/-- The fields of composed data are read back from its segments. -/
theorem ConfigFacts.dataSymbols_fields {c : Config} (h : ConfigFacts c) {ev dw cat seat : Nat} (seq : Nat)
    (hev : ev < 32 ^ 5) (hdw : dw < 32 ^ 5) (hcat : cat < 32 ^ 3) (hseat : seat < 32 ^ 5) (cs : Str) :
    let t := dataSymbols c ev dw cat seat seq ++ cs
    value c (Segments.ofCode t).seg0 = ev ∧ codeDate c t = dw ∧ value c (Segments.ofCode t).seg2 = cat ∧
      value c (Segments.ofCode t).seg3 = seat ∧ value c (Segments.ofCode t).seg4 = seq % 32 ^ 4 ∧
      (Segments.ofCode t).seg5 = cs := by
  simp only [codeDate, dataSymbols]
  rw [segments_ofCode_join (by simp) (by simp) (by simp) (by simp) (by simp)]
  exact ⟨h.value_digits hev, h.value_digits hdw, h.value_digits hcat, h.value_digits hseat,
    h.value_digits (Nat.mod_lt _ (by norm_num)), rfl⟩

/-- The fields of the record of an accepted code are the numbers in its segments: nothing is cut off. -/
theorem ConfigFacts.codeRecord_fields {c : Config} (h : ConfigFacts c) {t : Str} (hl : t.length = 24)
    (ha : allSymbols c t = true)
    (hd : datecheck (wordYear (codeDate c t)) (wordMonth (codeDate c t)) (wordDay (codeDate c t)) = true) :
    (codeRecord c t).ev.toNat = value c (Segments.ofCode t).seg0 ∧
      (codeRecord c t).y.toNat = wordYear (codeDate c t) ∧ (codeRecord c t).m.toNat = wordMonth (codeDate c t) ∧
      (codeRecord c t).d.toNat = wordDay (codeDate c t) ∧
      (codeRecord c t).cat.toNat = value c (Segments.ofCode t).seg2 ∧
      (codeRecord c t).seat.toNat = value c (Segments.ofCode t).seg3 ∧
      (codeRecord c t).seq.toNat = value c (Segments.ofCode t).seg4 := by
  obtain ⟨l0, -, l2, l3, l4, -⟩ := segments_length hl
  obtain ⟨a0, -, a2, a3, a4, -⟩ := segments_allSymbols ha
  have v0 := h.value_lt a0
  have v2 := h.value_lt a2
  have v3 := h.value_lt a3
  have v4 := h.value_lt a4
  rw [l0] at v0
  rw [l2] at v2
  rw [l3] at v3
  rw [l4] at v4
  obtain ⟨-, hy, hdate⟩ := (datecheck_iff _ _ _).mp hd
  obtain ⟨-, hm, -, hday⟩ := isdate_bounds hdate
  simp only [codeRecord, assemble, BitVec.toNat_ofNat]
  refine ⟨?_, ?_, ?_, ?_, ?_, ?_, ?_⟩ <;> apply Nat.mod_eq_of_lt <;> omega

/-! ## The operations -/

variable {s : State} (hwf : s.cfg.wellFormed = true)
include hwf

theorem exec_enc (w v : Nat) :
    exec (.enc w v) s =
      if v < 32 ^ w then .next (s.answerOk (.s (digits s.cfg v w)))
      else .next (s.raise .valueOutOfRange) := by
  simp only [exec, execEnc, encAnswer, fits, decide_eq_true_eq]
  split <;> simp [perform_ok hwf, perform_raise hwf]

theorem exec_encc (v : Nat) :
    exec (.encc v) s = .next (s.answerOk (.s (digits s.cfg v (minWidth v)))) := by
  simp [exec, execEncc, enccAnswer, perform_ok hwf]

theorem exec_norm (str : Str) : exec (.norm str) s = .next (s.answerOk (.s (normStr s.cfg str))) := by
  simp [exec, execNorm, perform_ok hwf]

theorem exec_dec (str : Str) :
    exec (.dec str) s =
      if allSymbols s.cfg (normStr s.cfg str) then
        if normStr s.cfg str = [] then .refused .decodeOfNothing
        else if 2 ^ s.cfg.widths.valW ≤ value s.cfg (normStr s.cfg str) then .refused .decodeTooLarge
        else .next (s.answerOk (.v (value s.cfg (normStr s.cfg str))))
      else .next (s.raise .decodeFailure) := by
  simp only [exec, execDec, decAnswer]
  split_ifs <;> simp [perform_ok hwf, perform_raise hwf, perform_refuse hwf]

theorem exec_isvc (ch : Nat) : exec (.isvc ch) s = .next (s.answerOk (.b (validChar s.cfg ch))) := by
  simp [exec, execIsvc, perform_ok hwf]

theorem exec_crc (str : Str) :
    exec (.crc str) s =
      if allSymbols s.cfg (normStr s.cfg str) then
        if normStr s.cfg str = [] then .refused .checksumOfNothing
        else .next (s.answerOk (.s (checksum s.cfg (normStr s.cfg str))))
      else .next (s.raise .decodeFailure) := by
  simp only [exec, execCrc, crcAnswer]
  split_ifs <;> simp [perform_ok hwf, perform_raise hwf, perform_refuse hwf]

theorem exec_append (str : Str) :
    exec (.append str) s =
      if allSymbols s.cfg (normStr s.cfg str) then
        if normStr s.cfg str = [] then .refused .checksumOfNothing
        else .next (s.answerOk (.s (str ++ checksum s.cfg (normStr s.cfg str))))
      else .next (s.raise .decodeFailure) := by
  simp only [exec, execAppend, appendAnswer, crcAnswer]
  split_ifs <;> simp [perform_ok hwf, perform_raise hwf, perform_refuse hwf]

theorem exec_extract (str : Str) :
    exec (.extract str) s =
      if str.length < 2 then .refused .shorterThanChecksum
      else .next (s.answerOk (.s (str.drop (str.length - 2)))) := by
  simp only [exec, execExtract, extractAnswer]
  split_ifs <;> simp [perform_ok hwf, perform_refuse hwf]

theorem exec_strip (str : Str) :
    exec (.strip str) s =
      if str.length < 2 then .refused .shorterThanChecksum
      else .next (s.answerOk (.s (str.take (str.length - 2)))) := by
  simp only [exec, execStrip, stripAnswer]
  split_ifs <;> simp [perform_ok hwf, perform_refuse hwf]

theorem exec_validate (str : Str) :
    exec (.validate str) s =
      if (normStr s.cfg str).length < 2 then .next (s.answerOk (.b false))
      else if allSymbols s.cfg (normStr s.cfg str) then
        if (normStr s.cfg str).length = 2 then .refused .validateOfNoData
        else .next (s.answerOk (.b (checksumGood s.cfg (normStr s.cfg str))))
      else .next (s.answerOk (.b false)) := by
  simp only [exec, execValidate, validateAnswer]
  split_ifs <;> simp [perform_ok hwf, perform_refuse hwf]

theorem exec_compose (ev y m d cat seat : Nat) (seq : Int) :
    exec (.compose ev y m d cat seat seq) s =
      if isdate y m d then
        if seq < 0 then .next (s.raise .invalidInput)
        else if ev < 32 ^ 5 ∧ dateWord y m d < 32 ^ 5 ∧ cat < 32 ^ 3 ∧ seat < 32 ^ 5 then
          let data := dataSymbols s.cfg ev (dateWord y m d) cat seat seq.toNat
          .next (s.answerOk (.s (data ++ checksum s.cfg data)))
        else .next (s.raise .valueOutOfRange)
      else .refused .notADate := by
  simp only [exec, execCompose, composeAnswer, fits, Bool.and_eq_true, decide_eq_true_eq, and_assoc]
  split_ifs <;> simp [perform_ok hwf, perform_raise hwf, perform_refuse hwf]

theorem exec_format (str : Str) :
    exec (.format str) s =
      if str.length = 24 ∧ allSymbols s.cfg str = true then .next (s.answerOk (.s (dashed str)))
      else .refused .notTwentyFourSymbols := by
  simp only [exec, execFormat, formatAnswer]
  split_ifs <;> simp [perform_ok hwf, perform_refuse hwf]

theorem exec_rmdash (str : Str) : exec (.rmdash str) s = .next (s.answerOk (.s (removeDashes str))) := by
  simp [exec, execRmdash, perform_ok hwf]

theorem exec_decode (str : Str) :
    exec (.decode str) s =
      let t := normStr s.cfg str
      if t.length = 24 then
        if checksumGood s.cfg t then
          if datecheck (wordYear (codeDate s.cfg t)) (wordMonth (codeDate s.cfg t)) (wordDay (codeDate s.cfg t)) then
            .next (s.answerOk (.r (codeRecord s.cfg t)))
          else .next (s.raise .invalidDate)
        else .next (s.raise .invalidChecksum)
      else .next (s.raise .invalidLength) := by
  simp only [exec, execDecode, decodeRun_eq]
  split_ifs <;> simp [perform_ok hwf, perform_raise hwf]

theorem exec_split (str : Str) :
    exec (.split str) s =
      if (normStr s.cfg str).length = 24 then .next (s.answerOk (.g (Segments.ofCode (normStr s.cfg str))))
      else .next (s.raise .invalidLength) := by
  simp only [exec, execSplit, splitAnswer]
  split_ifs <;> simp [perform_ok hwf, perform_raise hwf]

theorem exec_isvf (str : Str) :
    exec (.isvf str) s =
      .next (s.answerOk (.b ((normStr s.cfg str).length == 24 && checksumGood s.cfg (normStr s.cfg str)))) := by
  simp [exec, execIsvf, validFormat, perform_ok hwf]

omit hwf

/-- What an operation answers, from the configuration and the operands alone. -/
def answerOf (c : Config) : Instr → Answer Result
  | .enc width value => (encAnswer c width value).map .s
  | .encc value => (enccAnswer c value).map .s
  | .dec str => (decAnswer c str).map .v
  | .norm str => .ok (.s (normStr c str))
  | .isvc ch => .ok (.b (validChar c ch))
  | .crc str => (crcAnswer c str).map .s
  | .append str => (appendAnswer c str).map .s
  | .extract str => (extractAnswer str).map .s
  | .strip str => (stripAnswer str).map .s
  | .validate str => (validateAnswer c str).map .b
  | .compose ev y m d cat seat seq => (composeAnswer c ev y m d cat seat seq).map .s
  | .decode str => (decodeRun c str).2.map .r
  | .format str => (formatAnswer c str).map .s
  | .rmdash str => .ok (.s (removeDashes str))
  | .isvf str => .ok (.b (validFormat c str))
  | .split str => (splitAnswer c str).map .g

/-- Every operation ends through `perform`, on an answer that depends on the configuration and the operands only. -/
theorem exec_eq_perform (i : Instr) (s : State) : exec i s = perform (answerOf s.cfg i) s := by
  cases i <;> rfl

end Sys2Proof.Machine
end

