-- ==== Sys2Proof/Laws/FrontEnd.lean ====
section
/-! SUPPORT. Everything `fieldvalue` and `generate` can do, whatever the parser and the hash are. -/

namespace Sys2Proof.Machine

variable {parseInt : Str → Option Int} {strHash : Str → Nat}

theorem fieldvalue_ok {str : Str} {w v : Nat} (h : fieldvalue parseInt strHash str w = .ok v) : v < 32 ^ w := by
  unfold fieldvalue at h
  split at h
  · split_ifs at h with hneg hlt
    cases h
    have : (32 : Int) ^ w = ((32 ^ w : Nat) : Int) := by push_cast; rfl
    omega
  · cases h
    exact Nat.mod_lt _ (by positivity)

theorem fieldvalue_raise {str : Str} {w : Nat} {f : Failure} (h : fieldvalue parseInt strHash str w = .raise f) :
    f = .valueOutOfRange ∧ ∃ n, parseInt str = some n ∧ 32 ^ w ≤ n := by
  unfold fieldvalue at h
  split at h
  · rename_i n hn
    split_ifs at h with hneg hlt
    cases h
    exact ⟨rfl, n, hn, by omega⟩
  · cases h

theorem fieldvalue_refuse {str : Str} {w : Nat} {q : Refusal} (h : fieldvalue parseInt strHash str w = .refuse q) :
    q = .negativeIdentifier ∧ ∃ n, parseInt str = some n ∧ n < 0 := by
  unfold fieldvalue at h
  split at h
  · rename_i n hn
    split_ifs at h with hneg hlt
    cases h
    exact ⟨rfl, n, hn, hneg⟩
  · cases h

theorem generate_malformed {c : Config} (h : c.wellFormed = false) (eventID : Str) (y m d : Nat)
    (categoryID seatID : Str) (seq : Int) :
    generate parseInt strHash c eventID y m d categoryID seatID seq = .refuse .configNotWellFormed := by
  simp [generate, h]

/-- Once the front end has given the three numbers, `generate` answers what its `COMPOSE` answers. -/
theorem generate_of_frontEnd {c : Config} (hwf : c.wellFormed = true) {eventID categoryID seatID : Str}
    {seq : Int} {n : FieldNumbers} (h : frontEnd parseInt strHash eventID categoryID seatID seq = .ok n)
    (y m d : Nat) :
    (generate parseInt strHash c eventID y m d categoryID seatID seq).map .s =
      answerOf c (generateInstr n y m d seq) := by
  simp [generate, hwf, h, generateInstr, answerOf]

end Sys2Proof.Machine
end

