-- ==== Sys2Proof/Laws/PerInstr.lean ====
section
/-! SUPPORT. One lemma per constructor of `Instr`: the header of its encoding splits into its fields, and its payload is of
its operation's format (spec/30_encoding.md rules R57, R58, R60). -/

namespace Sys2Proof

theorem headerOp_header (op : Op) : ∀ w : BitVec 5, headerOp (header op w) = op.code := by
  cases op <;> decide

theorem headerWidth_header (op : Op) : ∀ w : BitVec 5, headerWidth (header op w) = w := by
  cases op <;> decide

theorem headerReserved_header (op : Op) : ∀ w : BitVec 5, headerReserved (header op w) = 0 := by
  cases op <;> decide

theorem ofCode_code (op : Op) : Op.ofCode op.code = some op := by
  cases op <;> decide

end Sys2Proof

namespace Sys2Proof.Laws.Encoded

/-- Whatever the widths, an instruction's encoding carries its code and its width, no reserved bit, and a payload of its
format. -/
def Statement (i : Instr) : Prop :=
  ∀ c : Config,
    Op.ofCode (headerOp (encode c i).header) = some i.op ∧ headerWidth (encode c i).header = i.widthField ∧
      headerReserved (encode c i).header = 0 ∧ i.op.reqFormat.fits c.widths (encode c i).payload.length = true

/-- The header part, for every instruction. -/
theorem header_part (i : Instr) (h : ∀ w : Widths, i.op.reqFormat.fits w (i.payload w).length = true) : Statement i :=
  fun c => ⟨by rw [encode, headerOp_header, ofCode_code], headerWidth_header _ _, headerReserved_header _ _, h c.widths⟩

theorem enc (width value : Nat) : Statement (.enc width value) :=
  header_part _ fun _ => by simp [Instr.op, Op.reqFormat, Instr.payload, Format.fits, Widths.bitsN]

theorem encc (value : Nat) : Statement (.encc value) :=
  header_part _ fun _ => by simp [Instr.op, Op.reqFormat, Instr.payload, Format.fits, Widths.bitsN]

theorem dec (str : Str) : Statement (.dec str) :=
  header_part _ fun _ => by simp [Instr.op, Op.reqFormat, Instr.payload, Format.fits]

theorem norm (str : Str) : Statement (.norm str) :=
  header_part _ fun _ => by simp [Instr.op, Op.reqFormat, Instr.payload, Format.fits]

theorem isvc (ch : Nat) : Statement (.isvc ch) :=
  header_part _ fun _ => by simp [Instr.op, Op.reqFormat, Instr.payload, Format.fits, Widths.bitsC]

theorem crc (str : Str) : Statement (.crc str) :=
  header_part _ fun _ => by simp [Instr.op, Op.reqFormat, Instr.payload, Format.fits]

theorem append (str : Str) : Statement (.append str) :=
  header_part _ fun _ => by simp [Instr.op, Op.reqFormat, Instr.payload, Format.fits]

theorem extract (str : Str) : Statement (.extract str) :=
  header_part _ fun _ => by simp [Instr.op, Op.reqFormat, Instr.payload, Format.fits]

theorem strip (str : Str) : Statement (.strip str) :=
  header_part _ fun _ => by simp [Instr.op, Op.reqFormat, Instr.payload, Format.fits]

theorem validate (str : Str) : Statement (.validate str) :=
  header_part _ fun _ => by simp [Instr.op, Op.reqFormat, Instr.payload, Format.fits]

theorem compose (ev y m d cat seat : Nat) (seq : Int) : Statement (.compose ev y m d cat seat seq) :=
  header_part _ fun _ => by simp [Instr.op, Op.reqFormat, Instr.payload, Format.fits, Widths.bitsG]; omega

theorem decode (str : Str) : Statement (.decode str) :=
  header_part _ fun _ => by simp [Instr.op, Op.reqFormat, Instr.payload, Format.fits]

theorem format (str : Str) : Statement (.format str) :=
  header_part _ fun _ => by simp [Instr.op, Op.reqFormat, Instr.payload, Format.fits]

theorem rmdash (str : Str) : Statement (.rmdash str) :=
  header_part _ fun _ => by simp [Instr.op, Op.reqFormat, Instr.payload, Format.fits]

theorem isvf (str : Str) : Statement (.isvf str) :=
  header_part _ fun _ => by simp [Instr.op, Op.reqFormat, Instr.payload, Format.fits]

theorem split (str : Str) : Statement (.split str) :=
  header_part _ fun _ => by simp [Instr.op, Op.reqFormat, Instr.payload, Format.fits]

end Sys2Proof.Laws.Encoded
end

