-- ==== Sys2Proof/Laws/Step.lean ====
section
/-! SUPPORT. Everything the step can do, one lemma for each way it goes. -/

namespace Sys2Proof.Machine

theorem step_malformed {s : State} (h : s.cfg.wellFormed = false) : step s = .refused .configNotWellFormed := by
  simp [step, h]

theorem step_no_request {s : State} (hwf : s.cfg.wellFormed = true) (h : s.requests = []) : step s = .next s := by
  simp [step, hwf, h]

theorem step_illegal {s : State} {r : Request} {rest : List Request} {why : IllegalReason}
    (hwf : s.cfg.wellFormed = true) (h : s.requests = r :: rest) (hd : decode s.cfg r = .illegal why) :
    step s = .next { s with requests := rest, response := some ⟨.failed .illegalRequest, none⟩ } := by
  simp only [step, hwf, h, hd, if_true]
  rw [perform_raise (by exact hwf)]
  simp [State.raise, State.consume, h]

theorem step_not_of_format {s : State} {r : Request} {rest : List Request} {f : Format}
    (hwf : s.cfg.wellFormed = true) (h : s.requests = r :: rest) (hd : decode s.cfg r = .notOfFormat f) :
    step s = .refused .payloadNotOfFormat := by
  simp [step, hwf, h, hd]

/-- The step of an instruction is its `exec`, under a malformed configuration too: both refuse. -/
theorem step_instr {s : State} {r : Request} {rest : List Request} {i : Instr} (h : s.requests = r :: rest)
    (hd : decode s.cfg r = .instr i) : step s = exec i { s with requests := rest } := by
  cases hwf : s.cfg.wellFormed with
  | false =>
    rw [step_malformed hwf, exec_eq_perform, perform_malformed (by exact hwf)]
  | true => simp [step, hwf, h, hd, State.consume]

end Sys2Proof.Machine
end

