-- ==== Sys2Proof/Machine/Written.lean ====
section
/-! DEFINITION. The written syntax of a request and its response, one line (spec/30_encoding.md rule R64;
log entry 18). -/

namespace Sys2Proof.Machine

/-- The mnemonic (R60). -/
def mnemonic : Op → Str
  | .enc => ascii "ENC"
  | .encc => ascii "ENCC"
  | .dec => ascii "DEC"
  | .norm => ascii "NORM"
  | .isvc => ascii "ISVC"
  | .crc => ascii "CRC"
  | .append => ascii "APPEND"
  | .extract => ascii "EXTRACT"
  | .strip => ascii "STRIP"
  | .validate => ascii "VALIDATE"
  | .compose => ascii "COMPOSE"
  | .decode => ascii "DECODE"
  | .format => ascii "FORMAT"
  | .rmdash => ascii "RMDASH"
  | .isvf => ascii "ISVF"
  | .split => ascii "SPLIT"

/-- The name of a failure status (R61). -/
def failureName : Failure → Str
  | .invalidInput => ascii "InvalidInput"
  | .valueOutOfRange => ascii "ValueOutOfRange"
  | .invalidLength => ascii "InvalidLength"
  | .invalidChecksum => ascii "InvalidChecksum"
  | .invalidDate => ascii "InvalidDate"
  | .decodeFailure => ascii "DecodeFailure"
  | .illegalRequest => ascii "IllegalRequest"

/-- The last `w` decimal digits of a number, zeros on the left. -/
def decimalPadded (w n : Nat) : Str := (List.range w).map fun i => 0x30 + n / 10 ^ (w - 1 - i) % 10

/-- How many decimal digits a number has, at least 1. -/
def decimalWidth (n : Nat) : Nat := ((List.range' 1 (n.log2 + 1)).find? fun w => n < 10 ^ w).getD 1

/-- A number in decimal. -/
def decimal (n : Nat) : Str := decimalPadded (decimalWidth n) n

/-- A string in double quotes. -/
def quoted (t : Str) : Str := [0x22] ++ t ++ [0x22]

/-- A date, `YYYY-MM-DD`. -/
def writtenDate (y m d : Nat) : Str :=
  decimalPadded (max 4 (decimalWidth y)) y ++ ascii "-" ++ decimalPadded 2 m ++ ascii "-" ++ decimalPadded 2 d

/-- The operands in the order of the source's signatures. -/
def writtenOperands : Instr → Str
  | .enc width value => decimal value ++ ascii ", " ++ decimal width
  | .encc value => decimal value
  | .isvc ch => [0x27, ch, 0x27]
  | .compose ev y m d cat seat seq =>
    decimal ev ++ ascii ", " ++ writtenDate y m d ++ ascii ", " ++ decimal cat ++
      ascii ", " ++ decimal seat ++ ascii ", " ++
      (if seq < 0 then ascii "-" ++ decimal (-seq).toNat else decimal seq.toNat)
  | .dec str => quoted str
  | .norm str => quoted str
  | .crc str => quoted str
  | .append str => quoted str
  | .extract str => quoted str
  | .strip str => quoted str
  | .validate str => quoted str
  | .decode str => quoted str
  | .format str => quoted str
  | .rmdash str => quoted str
  | .isvf str => quoted str
  | .split str => quoted str

/-- A result; a `DECODE` result stands in braces, codes 0x7B and 0x7D. -/
def writtenResult : Result → Str
  | .s sout => quoted sout
  | .v vout => decimal vout
  | .b bout => if bout then ascii "true" else ascii "false"
  | .r rec =>
    [0x7B] ++ ascii "ev " ++ decimal rec.ev.toNat ++ ascii ", date " ++
      writtenDate rec.y.toNat rec.m.toNat rec.d.toNat ++ ascii ", cat " ++ decimal rec.cat.toNat ++
      ascii ", seat " ++ decimal rec.seat.toNat ++ ascii ", seq " ++ decimal rec.seq.toNat ++
      ascii ", id " ++ quoted rec.id ++ ascii ", cs " ++ quoted rec.cs ++ [0x7D]
  | .g segs =>
    quoted segs.seg0 ++ ascii ", " ++ quoted segs.seg1 ++ ascii ", " ++ quoted segs.seg2 ++ ascii ", " ++
      quoted segs.seg3 ++ ascii ", " ++ quoted segs.seg4 ++ ascii ", " ++ quoted segs.seg5

/-- A response: the result for `OK`, `!Status` for a failure. -/
def writtenResponse (r : Response) : Str :=
  match r.status with
  | .ok => (r.result.map writtenResult).getD []
  | .failed f => ascii "!" ++ failureName f

/-- The line of a request and what became of it. -/
def writtenLine (i : Instr) (o : Host.Outcome State Fault Refusal) : Str :=
  mnemonic i.op ++ ascii " " ++ writtenOperands i ++ ascii " -> " ++
    match o with
    | .next t => (t.response.map writtenResponse).getD []
    | .refused _ => ascii "refuse"

end Sys2Proof.Machine
end

