-- ==== Sys2Proof/Tests/Slice0.lean ====
section
/-! SUPPORT. The model's own tests, and for every statement with hypotheses a witness that meets them. Expected values
are the spec's: spec/95_test_vectors.md, named by vector (S, V, P), and the tables of spec/30_encoding.md. -/

namespace Sys2Proof.Tests

open Sys2Proof Sys2Proof.Machine

set_option Elab.async false

/-- The decoder at the default widths. -/
def read (r : Request) : Decoded := decode Config.default r

/-- The host's reader at the default widths. -/
def readResponse (k : ResultKind) (bs : Bits) : Option Response := decodeResponse Config.default k bs

/-- The reset machine with requests on its port. -/
def machine (rs : List Request) : State := { State.reset with requests := rs }

/-- The written line (R64) of an instruction run on the reset machine. -/
def line (i : Instr) : Str := writtenLine i (exec i State.reset)

/-- A bit string written as digits. -/
def bits (digits : String) : Bits := digits.toList.map (· == '1')

/-- The composite code of S1 and P1. -/
def code : Str := ascii "00C1SKA0JS034000FM00Z7D9"

/-- The record of P1 and V68. -/
def record : Record := ⟨12345, 2025, 12, 25, 100, 500, 999, code, ascii "D9"⟩

/-! ## Decoding: words written out from R57, R58 and R60 -/

theorem test_decode_codec :
    read ⟨0b0000000010100001, bits "0000000000000000000000000000000000000000000000000011000000111001"⟩
      = .instr (.enc 5 12345) ∧
    read ⟨0b0000000000000010, bits "1000000000000000000000000000000000000000000000000000000000000001"⟩
      = .instr (.encc 0x8000000000000001) ∧
    read ⟨0b0000000000000011, bits "0101010101001110"⟩ = .instr (.dec (ascii "UN")) ∧
    read ⟨0b0000000000000100, bits "0110000100101101"⟩ = .instr (.norm (ascii "a-")) ∧
    read ⟨0b0000000000000101, bits "01001100"⟩ = .instr (.isvc 0x4C) := by decide +kernel

theorem test_decode_checksum :
    read ⟨0b0000000000000110, bits "00110001"⟩ = .instr (.crc (ascii "1")) ∧
    read ⟨0b0000000000000111, bits "00110000"⟩ = .instr (.append (ascii "0")) ∧
    read ⟨0b0000000000001000, bits "0100000101000010"⟩ = .instr (.extract (ascii "AB")) ∧
    read ⟨0b0000000000001001, bits "0100001001000001"⟩ = .instr (.strip (ascii "BA")) ∧
    read ⟨0b0000000000001010, bits ""⟩ = .instr (.validate []) := by decide +kernel

/-- Step 1 of P1, its payload written out in bits: `EV`, `Y`, `M`, `D`, `CAT`, `SEAT`, `SEQ`. -/
theorem test_decode_compose :
    read ⟨0b0000000000010000,
      bits "0000000000000000000000000000000000000000000000000011000000111001" ++ bits "0000011111101001" ++
      bits "1100" ++ bits "11001" ++
      bits "0000000000000000000000000000000000000000000000000000000001100100" ++
      bits "0000000000000000000000000000000000000000000000000000000111110100" ++
      bits "0000000000000000000000000000000000000000000000000000001111100111"⟩
      = .instr (.compose 12345 2025 12 25 100 500 999) := by decide +kernel

theorem test_decode_multiplexer :
    read ⟨0b0000000000010010, bits "00110000"⟩ = .instr (.format (ascii "0")) ∧
    read ⟨0b0000000000010011, bits "0010110101100001"⟩ = .instr (.rmdash (ascii "-a")) := by decide +kernel

theorem test_decode_demultiplexer :
    read ⟨0b0000000000010001, bits "01011010"⟩ = .instr (.decode (ascii "Z")) ∧
    read ⟨0b0000000000010100, bits "00100000"⟩ = .instr (.isvf (ascii " ")) ∧
    read ⟨0b0000000000010101, bits "11111111"⟩ = .instr (.split [0xFF]) := by decide +kernel

/-- V80 to V84. -/
theorem test_decode_illegal :
    read ⟨0x0000, []⟩ = .illegal .opUnassigned ∧ read ⟨0x000B, []⟩ = .illegal .opUnassigned ∧
    read ⟨0x000F, []⟩ = .illegal .opUnassigned ∧ read ⟨0x0016, []⟩ = .illegal .opUnassigned ∧
    read ⟨0x001F, []⟩ = .illegal .opUnassigned ∧ read ⟨0x0411, []⟩ = .illegal .reservedNotZero ∧
    read ⟨0x00A3, []⟩ = .illegal .widthNotZero ∧ Request.legal ⟨0x00A1, []⟩ = true := by decide +kernel

/-- A payload too short, too long, or with bits left over is of no format (R58). -/
theorem test_decode_not_of_format :
    read ⟨0x0001, List.replicate 63 true⟩ = .notOfFormat .n ∧ read ⟨0x0002, List.replicate 65 true⟩ = .notOfFormat .n ∧
    read ⟨0x0005, []⟩ = .notOfFormat .c ∧ read ⟨0x0004, List.replicate 7 true⟩ = .notOfFormat .s ∧
    read ⟨0x0010, List.replicate 280 true⟩ = .notOfFormat .g := by decide +kernel

/-- A row of spec/opcode_table.json: mask, match, operation. -/
structure TableRow where
  mask : Nat
  word : Nat
  op   : Op

/-- The row of an operation that fixes every header bit. -/
def fixedRow (word : Nat) (op : Op) : TableRow := ⟨0xFFFF, word, op⟩

def tableRows : List TableRow :=
  [⟨0xFC1F, 0x0001, .enc⟩, fixedRow 0x0002 .encc, fixedRow 0x0003 .dec, fixedRow 0x0004 .norm, fixedRow 0x0005 .isvc,
   fixedRow 0x0006 .crc, fixedRow 0x0007 .append, fixedRow 0x0008 .extract, fixedRow 0x0009 .strip,
   fixedRow 0x000A .validate, fixedRow 0x0010 .compose, fixedRow 0x0011 .decode, fixedRow 0x0012 .format,
   fixedRow 0x0013 .rmdash, fixedRow 0x0014 .isvf, fixedRow 0x0015 .split]

theorem test_table_rows_disjoint :
    tableRows.Pairwise fun a b => a.mask &&& b.mask &&& (a.word ^^^ b.word) ≠ 0 := by decide +kernel

/-- The decoder's rule of legality and the table's masks agree on every code, alone and with one higher header bit. -/
theorem test_table_rows_are_the_legal_headers :
    ((0 :: (List.range' 5 11).map (2 ^ ·)).flatMap fun high => (List.range 32).map (high + ·)).all (fun h =>
      Request.legal ⟨BitVec.ofNat 16 h, []⟩ == tableRows.any fun row => h &&& row.mask == row.word) = true := by
  decide +kernel

theorem test_table_words :
    tableRows.all (fun row => (decodeTableWord 16 row.word).any fun i => i.op == row.op) = true ∧
    decodeTableWord 16 0x000B = none ∧
    (step (State.reset.withFetchWord 16 0x0002) matches .next ⟨_, [], some ⟨.ok, some (.s [0x30])⟩, _⟩) = true := by
  decide +kernel

/-- R61: the eight status codes. -/
theorem test_status_codes :
    Status.all.map Status.code = [0x00, 0x01, 0x02, 0x03, 0x04, 0x05, 0x06, 0xFF] := by decide +kernel

/-- Log entry 23: what is no response of the spec reads as none. -/
theorem test_no_response :
    readResponse .s [] = none ∧ readResponse .s (List.replicate 7 false) = none ∧
    readResponse .s (bits "00000000") = some ⟨.ok, some (.s [])⟩ ∧
    readResponse .b (bits "000000001") = some ⟨.ok, some (.b true)⟩ ∧
    readResponse .v (bits "00000111") = none ∧ readResponse .v (bits "000000110") = none := by decide +kernel

/-! ## Well-formedness: one ill-formed term for each check -/

theorem test_ill_formed_configurations :
    (Config.wellFormed Config.default) = true ∧
    -- (a) a symbol too many; (b) a lower-case symbol; (c) a symbol that is a separator
    Config.wellFormed { Config.default with alphabet := Config.default.alphabet ++ ascii "U" } = false ∧
    Config.wellFormed { Config.default with alphabet := ascii "0123456789ABCDEFGHJKMNPQRSTVWXYz" } = false ∧
    Config.wellFormed { Config.default with separators := ascii "-Z" } = false ∧
    -- (c) a symbol that is a key; (d) a value that is no symbol, a lower-case key, a key that is a separator
    Config.wellFormed { Config.default with confuse := [(0x5A, 0x30)] } = false ∧
    Config.wellFormed { Config.default with confuse := [(0x4F, 0x55)] } = false ∧
    Config.wellFormed { Config.default with confuse := [(0x6F, 0x30)] } = false ∧
    Config.wellFormed { Config.default with confuse := [(0x2D, 0x30)] } = false ∧
    -- (e) a lower-case separator; (f) an even polynomial; a map with two entries for one key
    Config.wellFormed { Config.default with separators := ascii "x" } = false ∧
    Config.wellFormed { Config.default with crcPoly := 0x232 } = false ∧
    Config.wellFormed { Config.default with confuse := [(0x4F, 0x30), (0x4F, 0x31)] } = false ∧
    -- characters that 6 bits do not hold; a high code as a separator and as a key (R39)
    Config.wellFormed { Config.default with widths := { Widths.default with charW := 6 } } = false ∧
    Config.wellFormed { Config.default with separators := [0xA0] } = false ∧
    Config.wellFormed { Config.default with confuse := [(0xD6, 0x30)] } = false := by decide +kernel

/-- Each of the nine checks refuses a configuration of its own. -/
theorem test_each_check_refuses :
    Config.alphabetDistinct { Config.default with alphabet := List.replicate 32 0x30 } = false ∧
    Config.alphabetDigitsAndLetters { Config.default with alphabet := ascii "ABCDEFGHJKMNPQRSTVWXYZ012345678U" } = false ∧
    Config.alphabetApart { Config.default with separators := ascii "0" } = false ∧
    Config.confuseOntoSymbols { Config.default with confuse := [(0x4F, 0x21)] } = false ∧
    Config.separatorsUpper { Config.default with separators := ascii "a" } = false ∧
    Config.polyOdd { Config.default with crcPoly := 0 } = false ∧
    Config.confuseIsMap { Config.default with confuse := [(0x4F, 0x30), (0x4F, 0x30)] } = false ∧
    Config.charactersFit { Config.default with widths := { Widths.default with charW := 6 } } = false ∧
    Config.charactersFit { Config.default with separators := [0x100] } = false ∧
    Config.charactersFit { Config.default with confuse := [(0x100, 0x30)] } = false ∧
    Config.highCodesInert { Config.default with separators := [0x80] } = false ∧
    Config.configWF { Config.default with separators := [0x80] } = true := by decide +kernel

theorem test_ill_formed_requests :
    Request.wellFormed Config.default ⟨0x0001, List.replicate 64 false⟩ = true ∧
    Request.wellFormed Config.default ⟨0x0001, List.replicate 63 false⟩ = false ∧ Request.wellFormed Config.default ⟨0x0005, []⟩ = false ∧
    Request.wellFormed Config.default ⟨0x0004, List.replicate 9 false⟩ = false ∧
    Request.wellFormed Config.default ⟨0x0010, List.replicate 282 false⟩ = false ∧ Request.wellFormed Config.default ⟨0x0000, []⟩ = false ∧
    Request.wellFormed Config.default ⟨0x0404, []⟩ = false ∧ Request.wellFormed Config.default ⟨0x0024, []⟩ = false := by decide +kernel

/-- Each operand at the first value that does not fit, and at the last that does. -/
theorem test_ill_formed_operands :
    let ok := Instr.wellFormed Config.default
    ok (.enc 31 (2 ^ 64 - 1)) = true ∧ ok (.enc 32 0) = false ∧ ok (.enc 0 (2 ^ 64)) = false ∧ ok (.encc (2 ^ 64)) = false ∧
    ok (.isvc 0xFF) = true ∧ ok (.isvc 0x100) = false ∧ ok (.norm [0x30, 0x100]) = false ∧
    ok (.compose (2 ^ 64 - 1) 65535 15 31 0 0 (-2 ^ 63)) = true ∧ ok (.compose (2 ^ 64) 0 0 0 0 0 0) = false ∧
    ok (.compose 0 65536 0 0 0 0 0) = false ∧ ok (.compose 0 0 16 0 0 0 0) = false ∧ ok (.compose 0 0 0 32 0 0 0) = false ∧
    ok (.compose 0 0 0 0 (2 ^ 64) 0 0) = false ∧ ok (.compose 0 0 0 0 0 (2 ^ 64) 0) = false ∧
    ok (.compose 0 0 0 0 0 0 (2 ^ 63)) = false ∧ ok (.compose 0 0 0 0 0 0 (-2 ^ 63 - 1)) = false ∧
    Instr.wellFormed { Config.default with widths := { Widths.default with widthW := 6 } } (.enc 32 0) = false := by
  decide +kernel

/-! ## Other widths (R7, log entry 5) -/

/-- A build whose values have 32 bits, whose characters have 7 and whose `WIDTH` has 3. -/
def narrow : Config := { Config.default with widths := { Widths.default with charW := 7, valW := 32, widthW := 3 } }

/-- R58's formats at these widths, and a `WIDTH` of more than 3 bits. -/
theorem test_decode_at_other_widths :
    narrow.wellFormed = true ∧ decode narrow ⟨0x00A1, bits "00000000000000000011000000111001"⟩ = .instr (.enc 5 12345) ∧
    decode narrow ⟨0x0101, List.replicate 32 false⟩ = .notOfFormat .n ∧
    decode narrow ⟨0x0004, bits "11000010101101"⟩ = .instr (.norm (ascii "a-")) ∧
    decode narrow ⟨0x0002, List.replicate 64 false⟩ = .notOfFormat .n := by decide +kernel

/-- R73 as ever, and R74's bound `2^VAL_W`: 4 * 32^6 = 2^32. -/
theorem test_run_at_other_widths :
    answerOf narrow (.norm (ascii "a O-i")) = .ok (.s (ascii "A01")) ∧
    answerOf narrow (.dec (ascii "3ZZZZZZ")) = .ok (.v 4294967295) ∧
    answerOf narrow (.dec (ascii "4000000")) = .refuse .decodeTooLarge := by decide +kernel

/-- A build of 16-bit characters with a separator and a confusable above 0xFF: R8 admits them, R39 speaks of 0x80 to 0xFF. -/
def wide : Config :=
  { Config.default with
    separators := [0x20, 0x2D, 0x2003], confuse := [(0x4F, 0x30), (0x2160, 0x31)]
    widths := { Widths.default with charW := 16 } }

/-- R73 on it, and R39's codes, which no `CHAR_W` admits as separators; 0x100 is the first code that is none of them. -/
theorem test_run_at_wide_characters :
    wide.wellFormed = true ∧ answerOf wide (.norm [0x61, 0x2003, 0x2160, 0x2004]) = .ok (.s [0x41, 0x31, 0x2004]) ∧
    Config.wellFormed { wide with separators := [0x100] } = true ∧
    Config.wellFormed { wide with separators := [0xFF] } = false ∧
    Config.wellFormed { wide with confuse := [(0x80, 0x30)] } = false := by decide +kernel

/-! ## The operations: vectors of spec/95_test_vectors.md, in the written syntax of R64 -/

/-- V5, V11. -/
theorem test_enc : line (.enc 5 12345) = ascii "ENC 12345, 5 -> \"00C1S\"" ∧
    line (.enc 5 33554432) = ascii "ENC 33554432, 5 -> !ValueOutOfRange" := by decide +kernel

/-- V12, V13: width 0, and the power that is not truncated to 64 bits. -/
theorem test_enc_widths : line (.enc 0 0) = ascii "ENC 0, 0 -> \"\"" ∧
    line (.enc 13 18446744073709551615) = ascii "ENC 18446744073709551615, 13 -> \"FZZZZZZZZZZZZ\"" := by
  decide +kernel

/-- V14. -/
theorem test_encc : line (.encc 0) = ascii "ENCC 0 -> \"0\"" ∧ line (.encc 32) = ascii "ENCC 32 -> \"10\"" ∧
    line (.encc 18446744073709551615) = ascii "ENCC 18446744073709551615 -> \"FZZZZZZZZZZZZ\"" := by decide +kernel

/-- V15. -/
theorem test_norm : line (.norm (ascii "  a O i l - ")) = ascii "NORM \"  a O i l - \" -> \"A011\"" ∧
    line (.norm (ascii "u!")) = ascii "NORM \"u!\" -> \"U!\"" := by decide +kernel

/-- V19, V20. -/
theorem test_dec : line (.dec (ascii "0-0 c1S")) = ascii "DEC \"0-0 c1S\" -> 12345" ∧
    line (.dec (ascii "A!")) = ascii "DEC \"A!\" -> !DecodeFailure" := by decide +kernel

/-- V21, V22: the largest value of 64 bits, the next one, and nothing. -/
theorem test_dec_bounds :
    line (.dec (ascii "FZZZZZZZZZZZZ")) = ascii "DEC \"FZZZZZZZZZZZZ\" -> 18446744073709551615" ∧
    line (.dec (ascii "G000000000000")) = ascii "DEC \"G000000000000\" -> refuse" ∧
    line (.dec (ascii " - ")) = ascii "DEC \" - \" -> refuse" := by decide +kernel

/-- V23. -/
theorem test_isvc : line (.isvc 0x69) = ascii "ISVC 'i' -> true" ∧ line (.isvc 0x75) = ascii "ISVC 'u' -> false" ∧
    line (.isvc 0x2D) = ascii "ISVC '-' -> false" := by decide +kernel

/-- V38, V44. -/
theorem test_crc : line (.crc (ascii "OOCIS")) = ascii "CRC \"OOCIS\" -> \"69\"" ∧
    line (.crc (ascii "00!1S")) = ascii "CRC \"00!1S\" -> !DecodeFailure" ∧
    line (.crc (ascii " ")) = ascii "CRC \" \" -> refuse" := by decide +kernel

/-- The row of `crc_step(0, s)` before V30. -/
theorem test_crc_steps_of_single_symbols :
    (List.range 32).map (fun s => crcStep 0x233 0 (BitVec.ofNat 5 s)) =
      [0x000, 0x233, 0x255, 0x066, 0x299, 0x0AA, 0x0CC, 0x2FF, 0x301, 0x132, 0x154, 0x367, 0x198, 0x3AB, 0x3CD, 0x1FE] ++
      [0x031, 0x202, 0x264, 0x057, 0x2A8, 0x09B, 0x0FD, 0x2CE, 0x330, 0x103, 0x165, 0x356, 0x1A9, 0x39A, 0x3FC, 0x1CF] := by
  decide +kernel

/-- The register after each symbol of section 3 (the last ones of the trace). -/
theorem test_crc_register_trace :
    [19, 20, 21, 22].map (fun n => crcRegister Config.default ((symbolValues Config.default code).take n)) =
      [0x2BB, 0x3FB, 0x360, 0x1A9] := by decide +kernel

/-- V45. -/
theorem test_append : line (.append (ascii "00-C1S")) = ascii "APPEND \"00-C1S\" -> \"00-C1S69\"" ∧
    line (.append (ascii "U")) = ascii "APPEND \"U\" -> !DecodeFailure" := by decide +kernel

/-- V46. -/
theorem test_extract : line (.extract (ascii "00C1S69")) = ascii "EXTRACT \"00C1S69\" -> \"69\"" ∧
    line (.extract (ascii "7")) = ascii "EXTRACT \"7\" -> refuse" := by decide +kernel

/-- V46. -/
theorem test_strip : line (.strip (ascii "ab")) = ascii "STRIP \"ab\" -> \"\"" ∧
    line (.strip []) = ascii "STRIP \"\" -> refuse" := by decide +kernel

/-- V47, V48, V49. -/
theorem test_validate : line (.validate (ascii "00c1s-69")) = ascii "VALIDATE \"00c1s-69\" -> true" ∧
    line (.validate (ascii "00U1S69")) = ascii "VALIDATE \"00U1S69\" -> false" ∧
    line (.validate (ascii "0-0")) = ascii "VALIDATE \"0-0\" -> refuse" := by decide +kernel

/-- V50, V54. -/
theorem test_compose :
    line (.compose 12345 2025 12 25 100 500 999)
      = ascii "COMPOSE 12345, 2025-12-25, 100, 500, 999 -> \"00C1SKA0JS034000FM00Z7D9\"" ∧
    line (.compose 33554432 2025 12 25 1 1 (-1)) = ascii "COMPOSE 33554432, 2025-12-25, 1, 1, -1 -> !InvalidInput" := by
  decide +kernel

/-- V53, V57, V58: the wrap, the first year that does not fit, and a day that does not exist. -/
theorem test_compose_corners :
    line (.compose 1 2025 12 25 1 1 1048583)
      = ascii "COMPOSE 1, 2025-12-25, 1, 1, 1048583 -> \"00001KA0JS001000010007Y3\"" ∧
    line (.compose 0 3356 1 1 0 0 0) = ascii "COMPOSE 0, 3356-01-01, 0, 0, 0 -> !ValueOutOfRange" ∧
    line (.compose 1 2100 2 29 1 1 1) = ascii "COMPOSE 1, 2100-02-29, 1, 1, 1 -> refuse" := by decide +kernel

/-- S6, V59. -/
theorem test_format :
    line (.format (ascii "012345678901234567890123"))
      = ascii "FORMAT \"012345678901234567890123\" -> \"01234-56789-012-34567-8901-23\"" ∧
    line (.format (ascii "00c1ska0js034000fm00z7d9")) = ascii "FORMAT \"00c1ska0js034000fm00z7d9\" -> refuse" := by
  decide +kernel

/-- V60. -/
theorem test_rmdash : line (.rmdash (ascii "a-b c--d")) = ascii "RMDASH \"a-b c--d\" -> \"ab cd\"" := by decide +kernel

/-- V68: the record, of a code as typed. -/
theorem test_decode_record :
    answerOf Config.default (.decode (ascii " 00c1s-ka0js-034-000fm-00z7-d9 ")) = .ok (.r record) ∧
    answerOf Config.default (.decode (ascii "OOCIS-KAOJS-O34-OOOFM-OOZ7-D9")) = .ok (.r record) := by decide +kernel

/-- V61, V67, V69, V70: each failure of `DECODE`, and the checksum before the date. -/
theorem test_decode_failures :
    line (.decode (ascii "00001K9ZKP002000030004GF")) = ascii "DECODE \"00001K9ZKP002000030004GF\" -> !InvalidDate" ∧
    line (.decode (ascii "SHORT")) = ascii "DECODE \"SHORT\" -> !InvalidLength" ∧
    line (.decode (ascii "00C1SKA0JS034000FM00Z709")) = ascii "DECODE \"00C1SKA0JS034000FM00Z709\" -> !InvalidChecksum" ∧
    line (.decode (ascii "00D1SK9ZKP034000FM00Z7D9")) = ascii "DECODE \"00D1SK9ZKP034000FM00Z7D9\" -> !InvalidChecksum" := by
  decide +kernel

/-- The leap-year data points of S5 and R118, and the edges of V65. -/
theorem test_datecheck :
    datecheck 2025 2 30 = false ∧ datecheck 2024 2 29 = true ∧ datecheck 2000 2 29 = true ∧ datecheck 2100 2 29 = false ∧
    datecheck 1969 12 31 = false ∧ datecheck 1970 1 1 = true ∧ datecheck 2100 12 31 = true ∧ datecheck 2101 1 1 = false := by
  decide +kernel

/-- V71. -/
theorem test_split :
    line (.split (ascii "00D1SKA0JS034000FM00Z7D9"))
      = ascii "SPLIT \"00D1SKA0JS034000FM00Z7D9\" -> \"00D1S\", \"KA0JS\", \"034\", \"000FM\", \"00Z7\", \"D9\"" ∧
    line (.split (ascii "SHORT")) = ascii "SPLIT \"SHORT\" -> !InvalidLength" := by decide +kernel

/-- V72: no date test; a character that is no symbol. -/
theorem test_isvf :
    line (.isvf (ascii "00001K9ZKP002000030004GF")) = ascii "ISVF \"00001K9ZKP002000030004GF\" -> true" ∧
    line (.isvf (ascii "00U1SKA0JS034000FM00Z7D9")) = ascii "ISVF \"00U1SKA0JS034000FM00Z7D9\" -> false" := by
  decide +kernel

/-- P2: the code of P1 out of the primitives. -/
theorem test_primitives_give_the_code :
    answerOf Config.default (.append (ascii "00C1S" ++ ascii "KA0JS" ++ ascii "034" ++ ascii "000FM" ++ ascii "00Z7"))
      = .ok (.s code) ∧
    answerOf Config.default (.enc 5 20251225) = .ok (.s (ascii "KA0JS")) := by decide +kernel

/-- Section 3's undetected two-symbol error, on which `DECODE` answers `OK` with `ev` 16790105. -/
theorem test_undetected_double_error :
    (answerOf Config.default (.decode (ascii "G0CJSKA0JS034000FM00Z7D9")) matches .ok (.r ⟨16790105, _, _, _, _, _, _, _, _⟩))
      = true := by decide +kernel

/-! ## Witnesses: for each statement with hypotheses, a state and operands that meet them, clause by clause -/

theorem reset_wellFormed : State.reset.cfg.wellFormed = true := by decide +kernel

/-- Outcomes on the reset machine, from the answers. -/
theorem reset_answers {i : Instr} {res : Result} (h : answerOf Config.default i = .ok res) :
    exec i State.reset = .next (State.reset.answerOk res) := by
  rw [exec_eq_perform]; exact (perform_eq_answerOk reset_wellFormed).mpr h

theorem reset_raises {i : Instr} {f : Failure} (h : answerOf Config.default i = .raise f) :
    exec i State.reset = .next (State.reset.raise f) := by
  rw [exec_eq_perform]; exact (perform_eq_raise reset_wellFormed).mpr h

theorem reset_refuses {i : Instr} {q : Refusal} (h : answerOf Config.default i = .refuse q) :
    exec i State.reset = .refused q := by
  rw [exec_eq_perform]; exact (perform_eq_refused reset_wellFormed).mpr h

/-- A step on a machine whose one request is `i`. -/
theorem step_of_request {i : Instr} {r : Request} (h : read r = .instr i) :
    step (machine [r]) = exec i State.reset := step_instr rfl h

/-- The request of `ENCC 0`, by R57 and R58. -/
def enccZero : Request := ⟨0x0002, List.replicate 64 false⟩

theorem enccZero_decodes : read enccZero = .instr (.encc 0) := by decide +kernel

theorem enccZero_step : step (machine [enccZero]) = .next (State.reset.answerOk (.s (ascii "0"))) := by
  rw [step_of_request enccZero_decodes]; exact reset_answers (by decide +kernel)

theorem enccZero_run : Host.Core.run Sys2Proof.core 1 (machine [enccZero]) = .next (State.reset.answerOk (.s (ascii "0"))) := by
  show (match step (machine [enccZero]) with
    | .next s' => Host.Core.run Sys2Proof.core 0 s'
    | .fault r => .fault r
    | .refused r => .refused r) = _
  rw [enccZero_step]; rfl

/-- A configuration that fails `CONFIG_WF`. -/
def malformed : State := { machine [enccZero] with cfg := { Config.default with crcPoly := 0x232 } }

theorem symbols_of_all {t : Str} (h : allSymbols Config.default t = true) : ∀ ch ∈ t, ch ∈ Config.default.alphabet := by
  simpa [allSymbols, inA] using h

theorem code_symbols : ∀ ch ∈ code, ch ∈ Config.default.alphabet := symbols_of_all (by decide +kernel)

theorem witness_DecodeOfEncodeIsTheInstruction :
    Config.default.wellFormed = true ∧ Instr.wellFormed Config.default (.enc 31 (2 ^ 64 - 1)) = true ∧
    Instr.wellFormed Config.default (.compose 12345 2025 12 25 100 500 (-1)) = true ∧
    Instr.wellFormed Config.default (.decode code) = true ∧
    narrow.wellFormed = true ∧ Instr.wellFormed narrow (.enc 7 (2 ^ 32 - 1)) = true := by decide +kernel

theorem witness_EncodeOfDecodeIsTheRequest :
    Config.default.wellFormed = true ∧ decode Config.default enccZero = .instr (.encc 0) :=
  ⟨reset_wellFormed, enccZero_decodes⟩

theorem witness_WellFormedRequestsAreTheDecodableOnes : Config.default.wellFormed = true ∧ narrow.wellFormed = true := by
  decide +kernel

theorem witness_IllegalHeadersAreAnsweredIllegalRequest :
    State.reset.cfg.wellFormed = true ∧
    [0x0000, 0x000B, 0x000F, 0x0016, 0x001F, 0x0411, 0x8011, 0x0022, 0x03F5].all (fun h =>
      !Request.legal ⟨BitVec.ofNat 16 h, []⟩) = true ∧
    headerIllegal 0x0000 ∧ headerIllegal 0x000B ∧ headerIllegal 0x000F ∧ headerIllegal 0x0016 ∧ headerIllegal 0x001F ∧
    headerIllegal 0x0401 ∧ headerIllegal 0x0022 ∧ ¬ headerIllegal 0x0002 ∧ ¬ headerIllegal 0x03E1 ∧
    step (machine [enccZero]) = .next (State.reset.answerOk (.s (ascii "0"))) := by
  refine ⟨reset_wellFormed, by decide +kernel, ?_, ?_, ?_, ?_, ?_, ?_, ?_, ?_, ?_, enccZero_step⟩ <;>
    simp [headerIllegal]

theorem witness_ResponsesReadBackFromTheirBits :
    Config.default.wellFormed = true ∧
    responseShaped Config.default ⟨.ok, some (.r record)⟩ = true ∧ (Result.r record).kind = .r ∧
    responseShaped Config.default ⟨.failed .invalidDate, none⟩ = true ∧
    responseShaped Config.default ⟨.ok, some (.g (Segments.ofCode code))⟩ = true ∧
    responseShaped Config.default ⟨.ok, some (.b true)⟩ = true ∧
    responseShaped Config.default ⟨.ok, some (.v (2 ^ 64 - 1))⟩ = true := by decide +kernel

theorem witness_StepRunsTheDecodedInstruction :
    (machine [enccZero]).cfg.wellFormed = true ∧ (machine [enccZero]).requests = enccZero :: [] ∧
    decode (machine [enccZero]).cfg enccZero = .instr (.encc 0) := ⟨reset_wellFormed, rfl, enccZero_decodes⟩

theorem witness_ResetDropsWhatIsPendingAndNothingElse : (machine [enccZero]).cfg.wellFormed = true := reset_wellFormed

theorem witness_NoRequestMeansNoChange : State.reset.cfg.wellFormed = true ∧ State.reset.requests = [] :=
  ⟨reset_wellFormed, rfl⟩

theorem witness_EveryStepKeepsTheInvariant :
    stateInv (machine [enccZero]) = true ∧
    step (machine [enccZero]) = .next (State.reset.answerOk (.s (ascii "0"))) := ⟨by decide +kernel, enccZero_step⟩

theorem witness_OperationsWriteOnlyTheResponse :
    State.reset.cfg.wellFormed = true ∧
    exec (.decode code) State.reset = .next (State.reset.answerOk (.r record)) ∧
    exec (.decode []) State.reset = .next (State.reset.raise .invalidLength) :=
  ⟨reset_wellFormed, reset_answers (by decide +kernel), reset_raises (by decide +kernel)⟩

theorem witness_TheStepIsAFunctionOfConfigAndRequest :
    State.reset.cfg.wellFormed = true ∧ State.reset.cfg = (machine [enccZero]).cfg ∧
    refuses State.reset.cfg (.crc code) = false ∧ exec (.crc []) State.reset = .refused .checksumOfNothing :=
  ⟨reset_wellFormed, rfl, by decide +kernel, reset_refuses (by decide +kernel)⟩

theorem witness_NoRunChangesTheConfiguration :
    (machine [enccZero]).cfg.wellFormed = true ∧
    Host.Core.run Sys2Proof.core 1 (machine [enccZero]) = .next (State.reset.answerOk (.s (ascii "0"))) :=
  ⟨reset_wellFormed, enccZero_run⟩

/-- The second of two requests, the first answered. -/
theorem witness_RequestsAreIndependent :
    (machine [enccZero, enccZero]).cfg.wellFormed = true ∧
    (machine [enccZero, enccZero]).requests = [enccZero] ++ enccZero :: [] ∧
    Host.Core.run Sys2Proof.core [enccZero].length (machine [enccZero, enccZero])
      = .next ((machine [enccZero]).answerOk (.s (ascii "0"))) ∧
    (machine [enccZero]).cfg = (machine [enccZero, enccZero]).cfg ∧ (machine [enccZero]).requests = [enccZero] := by
  have h : step (machine [enccZero, enccZero]) = .next ((machine [enccZero]).answerOk (.s (ascii "0"))) := by
    rw [step_instr (s := machine [enccZero, enccZero]) rfl enccZero_decodes, exec_eq_perform]
    exact (perform_eq_answerOk (s := machine [enccZero]) reset_wellFormed).mpr (by decide +kernel)
  refine ⟨reset_wellFormed, rfl, ?_, rfl, rfl⟩
  show (match step (machine [enccZero, enccZero]) with
    | .next s' => Host.Core.run Sys2Proof.core 0 s'
    | .fault r => .fault r
    | .refused r => .refused r) = _
  rw [h]; rfl

theorem witness_AdmittedQueuesAreAnsweredToTheEnd :
    (machine [⟨0x0000, []⟩, enccZero]).cfg.wellFormed = true ∧
    ∀ r ∈ (machine [⟨0x0000, []⟩, enccZero]).requests,
      headerIllegal r.header ∨ ∃ i, decode Config.default r = .instr i ∧ refuses Config.default i = false := by
  refine ⟨reset_wellFormed, fun r hr => ?_⟩
  simp only [machine, List.mem_cons, List.not_mem_nil, or_false] at hr
  rcases hr with rfl | rfl
  · left; simp [headerIllegal]
  · exact .inr ⟨_, enccZero_decodes, rfl⟩

theorem witness_MalformedConfigurationGivesNoStep : malformed.cfg.wellFormed = false := by decide +kernel

theorem witness_AdmittedRequestsAreAnsweredWithinTheMatrix :
    State.reset.cfg.wellFormed = true ∧ Instr.wellFormed State.reset.cfg (.dec (ascii "FZZZZZZZZZZZZ")) = true ∧
    Instr.wellFormed State.reset.cfg (.split [0xFF]) = true ∧ refuses State.reset.cfg (.split [0xFF]) = false ∧
    refuses State.reset.cfg (.dec (ascii "FZZZZZZZZZZZZ")) = false ∧
    refuses State.reset.cfg (.validate (ascii "!!")) = false ∧ refuses State.reset.cfg (.extract (ascii "ab")) = false := by
  decide +kernel

theorem witness_RefusedRequestsAreThoseOfTheLastColumn :
    State.reset.cfg.wellFormed = true ∧ exec (.dec (ascii "G000000000000")) State.reset = .refused .decodeTooLarge ∧
    refuses State.reset.cfg (.format (ascii "SHORT")) = true :=
  ⟨reset_wellFormed, reset_refuses (by decide +kernel), by decide +kernel⟩

theorem witness_EveryCellOfTheMatrixOccurs :
    canAnswer .compose (.failed .invalidInput) = true ∧ canAnswer .decode (.failed .invalidDate) = true := by
  decide +kernel

theorem witness_FailuresCarryNoPartialResult :
    (machine [enccZero]).cfg.wellFormed = true ∧
    (machine [enccZero]).requests ≠ [] ∧
    step (machine [enccZero]) = .next (State.reset.answerOk (.s (ascii "0"))) ∧
    (State.reset.answerOk (.s (ascii "0"))).response = some ⟨.ok, some (.s (ascii "0"))⟩ :=
  ⟨reset_wellFormed, by simp [machine], enccZero_step, rfl⟩

/-- At the default widths the last clause begins at width 13. -/
theorem witness_EncGivesTheFieldOrValueOutOfRange :
    State.reset.cfg.wellFormed = true ∧ 33554431 < 32 ^ 5 ∧ 32 ^ 5 ≤ 33554432 ∧ 32 ^ 0 ≤ 1 ∧ 0 < 32 ^ 0 ∧
    2 ^ 64 - 1 < 2 ^ State.reset.cfg.widths.valW ∧ State.reset.cfg.widths.valW ≤ 5 * 13 := ⟨reset_wellFormed, by decide⟩

theorem witness_EnccGivesTheShortestField :
    State.reset.cfg.wellFormed = true ∧ (31#5) ≠ 0 ∧ 2 ^ 64 - 1 < 2 ^ 64 ∧ 1 ≤ 2 ∧ 32 < 32 ^ 2 ∧ 32 ≠ 0 :=
  ⟨reset_wellFormed, by decide⟩

theorem witness_NormDropsSeparatorsAndRemaps : State.reset.cfg.wellFormed = true := reset_wellFormed

theorem witness_NormIsIdempotent : State.reset.cfg.wellFormed = true := reset_wellFormed

theorem witness_DecGivesTheValue :
    State.reset.cfg.wellFormed = true ∧ (∃ ch ∈ normStr Config.default (ascii "A!"), ch ∉ Config.default.alphabet) ∧
    normStr Config.default (ascii " - ") = [] ∧
    normStr Config.default (ascii "G000000000000") ≠ [] ∧
    (∀ ch ∈ normStr Config.default (ascii "G000000000000"), ch ∈ Config.default.alphabet) ∧
    value Config.default (normStr Config.default (ascii "G000000000000")) = 2 ^ 64 ∧
    (∀ ch ∈ normStr Config.default (ascii "FZZZZZZZZZZZZ"), ch ∈ Config.default.alphabet) ∧
    value Config.default (normStr Config.default (ascii "FZZZZZZZZZZZZ")) = 2 ^ 64 - 1 := by decide +kernel

theorem witness_IsvcTestsTheRemappedCharacter :
    State.reset.cfg.wellFormed = true ∧ upper 0x6F ∉ Config.default.separators ∧
    upper 0x2D ∈ Config.default.separators := by decide +kernel

theorem witness_DigitsAndValueAreInverse :
    Config.default.wellFormed = true ∧ (1023 < 32 ^ 2) ∧ (∀ ch ∈ code, ch ∈ Config.default.alphabet) :=
  ⟨reset_wellFormed, by decide, code_symbols⟩

theorem witness_CodecRoundTrips :
    State.reset.cfg.wellFormed = true ∧
    (Instr.wellFormed State.reset.cfg (.enc 1 31) = true ∧ 1 ≤ 1 ∧ 31 < 32 ^ 1) ∧
    Instr.wellFormed State.reset.cfg (.encc (2 ^ 64 - 1)) = true ∧
    exec (.dec (ascii "00C1S")) State.reset = .next (State.reset.answerOk (.v 12345)) ∧
    (normStr Config.default (ascii "00C1S")).length ≤ 31 ∧
    exec (.dec (List.replicate 31 0x30)) State.reset = .next (State.reset.answerOk (.v 0)) ∧
    (normStr Config.default (List.replicate 31 0x30)).length = 31 :=
  ⟨reset_wellFormed, by decide, by decide +kernel, reset_answers (by decide +kernel), by decide +kernel,
    reset_answers (by decide +kernel), by decide +kernel⟩

theorem witness_CrcStepIsAPolynomialStep : Config.default.wellFormed = true := reset_wellFormed

theorem witness_CrcIsAPolynomialRemainder :
    Config.default.wellFormed = true ∧ ([1, 2] : List (BitVec 5)).length = ([31, 0] : List (BitVec 5)).length :=
  ⟨reset_wellFormed, rfl⟩

theorem witness_CrcGivesTwoChecksumSymbols :
    State.reset.cfg.wellFormed = true ∧ (∃ ch ∈ normStr Config.default (ascii "00!1S"), ch ∉ Config.default.alphabet) ∧
    normStr Config.default [] = [] ∧ normStr Config.default (ascii "00c1s") ≠ [] ∧
    (∀ ch ∈ normStr Config.default (ascii "00c1s"), ch ∈ Config.default.alphabet) := by decide +kernel

theorem witness_AppendAddsTheChecksum :
    State.reset.cfg.wellFormed = true ∧
    exec (.crc (ascii "00-C1S")) State.reset = .next (State.reset.answerOk (.s (ascii "69"))) ∧
    exec (.crc (ascii "U")) State.reset = .next (State.reset.raise .decodeFailure) ∧
    exec (.crc (ascii " ")) State.reset = .refused .checksumOfNothing :=
  ⟨reset_wellFormed, reset_answers (by decide +kernel), reset_raises (by decide +kernel), reset_refuses (by decide +kernel)⟩

theorem witness_CrcAndAppendComplete :
    State.reset.cfg.wellFormed = true ∧ normStr Config.default (ascii "0") ≠ [] ∧
    (∀ ch ∈ normStr Config.default (ascii "0"), ch ∈ Config.default.alphabet) := by decide +kernel

theorem witness_ExtractAndStripCutTheString :
    State.reset.cfg.wellFormed = true ∧ 2 ≤ (ascii "ab").length ∧ (ascii "7").length < 2 := by decide +kernel

theorem witness_ValidateComparesTheChecksum :
    State.reset.cfg.wellFormed = true ∧ (normStr Config.default (ascii "7")).length < 2 ∧
    (∃ ch ∈ normStr Config.default (ascii "!!"), ch ∉ Config.default.alphabet) ∧
    ((∀ ch ∈ normStr Config.default (ascii "0-0"), ch ∈ Config.default.alphabet) ∧
      (normStr Config.default (ascii "0-0")).length = 2) ∧
    ((∀ ch ∈ normStr Config.default (ascii "000"), ch ∈ Config.default.alphabet) ∧
      2 < (normStr Config.default (ascii "000")).length) := by decide +kernel

/-- P3's substitution (`D` for `C` at index 2), and one in the checksum field. -/
theorem witness_SingleSymbolSubstitutionIsDetected :
    State.reset.cfg.wellFormed = true ∧
    exec (.validate (ascii "00c1s-69")) State.reset = .next (State.reset.answerOk (.b true)) ∧
    2 < (normStr Config.default (ascii "00c1s-69")).length ∧
    normStr Config.default (ascii "00D1S69") = (normStr Config.default (ascii "00c1s-69")).set 2 0x44 ∧
    normStr Config.default (ascii "00C1S68") = (normStr Config.default (ascii "00c1s-69")).set 6 0x38 :=
  ⟨reset_wellFormed, reset_answers (by decide +kernel), by decide +kernel⟩

theorem witness_AdjacentDataSymbolErrorsAreDetected :
    State.reset.cfg.wellFormed = true ∧
    exec (.validate (ascii "00C1S69")) State.reset = .next (State.reset.answerOk (.b true)) ∧
    3 + 1 < (normStr Config.default (ascii "00C1S69")).length - 2 ∧
    normStr Config.default (ascii "00CS169")
      = ((normStr Config.default (ascii "00C1S69")).set 3 0x53).set (3 + 1) 0x31 ∧
    normStr Config.default (ascii "00CS169") ≠ normStr Config.default (ascii "00C1S69") :=
  ⟨reset_wellFormed, reset_answers (by decide +kernel), by decide +kernel⟩

theorem witness_ZeroStartMakesTheAllZeroCodeMatch :
    State.reset.cfg.wellFormed = true ∧ State.reset.cfg.crcInit = 0 ∧ State.reset.cfg.crcXorOut = 0 := by decide +kernel

/-- A day that does not exist, a negative sequence, each field at its capacity, and every field at its largest value
(V51). -/
theorem witness_ComposePacksTheFields :
    State.reset.cfg.wellFormed = true ∧ isdate 2025 2 30 = false ∧
    (isdate 2025 12 25 = true ∧ (-1 : Int) < 0) ∧
    (0 ≤ (0 : Int) ∧ ¬ 33554432 < 32 ^ 5 ∧ ¬ 32768 < 32 ^ 3 ∧
      isdate 3356 1 1 = true ∧ ¬ 3356 * 10000 + 1 * 100 + 1 < 32 ^ 5) ∧
    (33554431 < 32 ^ 5 ∧ 2025 * 10000 + 12 * 100 + 25 < 32 ^ 5 ∧ 32767 < 32 ^ 3 ∧
      isdate 3355 12 31 = true ∧ 3355 * 10000 + 12 * 100 + 31 < 32 ^ 5) :=
  ⟨reset_wellFormed, by decide +kernel⟩

/-- P2. -/
theorem witness_ComposeIsFiveEncAndOneAppend :
    State.reset.cfg.wellFormed = true ∧ isdate 2025 12 25 = true ∧ 0 ≤ (999 : Int) ∧
    exec (.enc 5 12345) State.reset = .next (State.reset.answerOk (.s (ascii "00C1S"))) ∧
    exec (.enc 5 (2025 * 10000 + 12 * 100 + 25)) State.reset
      = .next (State.reset.answerOk (.s (ascii "KA0JS"))) ∧
    exec (.enc 3 100) State.reset = .next (State.reset.answerOk (.s (ascii "034"))) ∧
    exec (.enc 5 500) State.reset = .next (State.reset.answerOk (.s (ascii "000FM"))) ∧
    exec (.enc 4 (999 % 1048576)) State.reset = .next (State.reset.answerOk (.s (ascii "00Z7"))) :=
  ⟨reset_wellFormed, by decide +kernel, by decide, reset_answers (by decide +kernel), reset_answers (by decide +kernel),
    reset_answers (by decide +kernel), reset_answers (by decide +kernel), reset_answers (by decide +kernel)⟩

theorem witness_SequencesWrapModuloTheCapacity :
    State.reset.cfg.wellFormed = true ∧
    0 ≤ (7 : Int) ∧ 0 ≤ (1048583 : Int) ∧ (7 : Int) % 1048576 = (1048583 : Int) % 1048576 :=
  ⟨reset_wellFormed, by decide⟩

theorem witness_YearsAreTestedByDecodeOnly :
    State.reset.cfg.wellFormed = true ∧ isdate 1969 12 31 = true ∧
    isdate 2101 1 1 = true ∧ isdate 3356 1 1 = true ∧
    0 ≤ (0 : Int) ∧ 0 < 32 ^ 5 ∧ 0 < 32 ^ 3 := by decide +kernel

theorem witness_FormatInsertsFiveDashes :
    State.reset.cfg.wellFormed = true ∧ (code.length = 24 ∧ ∀ ch ∈ code, ch ∈ Config.default.alphabet) ∧
    ¬ ((ascii "SHORT").length = 24 ∧ ∀ ch ∈ ascii "SHORT", ch ∈ Config.default.alphabet) :=
  ⟨reset_wellFormed, ⟨by decide +kernel, code_symbols⟩, fun h => absurd h.1 (by decide +kernel)⟩

theorem witness_RmdashRemovesDashesOnly : State.reset.cfg.wellFormed = true := reset_wellFormed

theorem witness_RmdashAndNormUndoFormat :
    State.reset.cfg.wellFormed = true ∧ code.length = 24 ∧ (∀ ch ∈ code, ch ∈ Config.default.alphabet) ∧
    (0x2D : Nat) ∈ State.reset.cfg.separators := ⟨reset_wellFormed, by decide +kernel, code_symbols, by decide +kernel⟩

/-- A parser that knows a few numbers, among them S1's, S3's and a negative one. -/
def parse (str : Str) : Option Int :=
  [("12345", 12345), ("100", 100), ("500", 500), ("33554432", 33554432), ("32768", 32768), ("-1", -1)].findSome?
    fun entry => if str = ascii entry.1 then some entry.2 else none

/-- `generate` with that parser and, as the hash, the length of the string. -/
def generated (eventID : String) (y m d : Nat) (categoryID seatID : String) (seq : Int) : Answer Str :=
  generate parse List.length Config.default (ascii eventID) y m d (ascii categoryID) (ascii seatID) seq

/-- S1, and a hashed identifier: three field values, a day that exists, a date word that fits. -/
theorem witness_GeneratedCodesDecodeToTheFieldValues :
    State.reset.cfg.wellFormed = true ∧ generated "12345" 2025 12 25 "100" "500" 999 = .ok code ∧
    (ascii "12345" ≠ [] ∧ ascii "100" ≠ [] ∧ ascii "gate" ≠ [] ∧ 0 ≤ (999 : Int) ∧
      fieldvalue parse List.length (ascii "12345") 5 = .ok 12345 ∧ fieldvalue parse List.length (ascii "100") 3 = .ok 100 ∧
      fieldvalue parse List.length (ascii "gate") 5 = .ok 4 ∧ isdate 2025 12 25 = true ∧ isdate 2100 2 29 = false ∧
      2025 * 10000 + 12 * 100 + 25 < 32 ^ 5 ∧ isdate 3356 1 1 = true ∧ ¬ 3356 * 10000 + 1 * 100 + 1 < 32 ^ 5) :=
  ⟨reset_wellFormed, by decide +kernel, by decide +kernel⟩

/-- Each way `generate` ends otherwise: S3, a category at its capacity, a date word that does not fit, an empty string, a
negative sequence, a negative identifier, a day that does not exist; and an unsupported year, which gives a code. -/
theorem witness_GeneratedCodesDecodeToTheFieldValues_ends :
    generated "33554432" 2025 12 25 "100" "500" 999 = .raise .valueOutOfRange ∧
    generated "12345" 2025 12 25 "32768" "500" 999 = .raise .valueOutOfRange ∧
    generated "12345" 3356 1 1 "100" "500" 999 = .raise .valueOutOfRange ∧
    generated "12345" 2025 12 25 "" "500" 999 = .raise .invalidInput ∧
    generated "33554432" 2025 12 25 "100" "500" (-1) = .raise .invalidInput ∧
    generated "12345" 2025 12 25 "100" "-1" 999 = .refuse .negativeIdentifier ∧
    generated "12345" 2100 2 29 "100" "500" 999 = .refuse .notADate ∧
    (generated "12345" 1969 12 31 "100" "500" 999 matches .ok _) = true := by decide +kernel

/-- The first of two failing fields decides; and all three field values given. -/
theorem witness_GenerateIsItsFrontEndAndOneCompose :
    State.reset.cfg.wellFormed = true ∧ 0 ≤ (0 : Int) ∧ (-1 : Int) < 0 ∧
    fieldvalue parse List.length (ascii "-1") 5 = .refuse .negativeIdentifier ∧
    fieldvalue parse List.length (ascii "32768") 3 = .raise .valueOutOfRange ∧
    fieldvalue parse List.length (ascii "500") 5 = .ok 500 ∧
    generated "-1" 2025 12 25 "32768" "500" 0 = .refuse .negativeIdentifier ∧
    generated "12345" 2025 12 25 "32768" "-1" 0 = .raise .valueOutOfRange :=
  ⟨reset_wellFormed, by decide +kernel⟩

theorem witness_FieldValuesFollowTheParse :
    parse (ascii "-1") = some (-1) ∧ parse (ascii "33554432") = some (32 ^ 5) ∧ parse (ascii "12345") = some 12345 ∧
    parse (ascii "gate") = none := by decide +kernel

theorem witness_GenerateSequenceDrawsBelowTheCapacity : State.reset.cfg.wellFormed = true := reset_wellFormed

theorem witness_HighCodesAreInert :
    State.reset.cfg.wellFormed = true ∧ (0x80 ≤ 0x80 ∧ 0x80 ≤ 0xFF) ∧ (0x80 ≤ 0xFF ∧ 0xFF ≤ 0xFF) :=
  ⟨reset_wellFormed, by decide⟩

theorem witness_DecodeEndsAtTheFirstFailingStage : Config.default.wellFormed = true := reset_wellFormed

/-- V67, V69, V61, V68. -/
theorem witness_DecodeChecksThenReadsTheFields :
    let bad := normStr Config.default (ascii "00C1SKA0JS034000FM00Z709")
    let dateless := normStr Config.default (ascii "00001K9ZKP002000030004GF")
    let t := normStr Config.default code
    let matching := fun t : Str =>
      t.drop 22 = digits Config.default (crc10 Config.default (symbolValues Config.default (t.take 22))).toNat 2
    let word := fun t : Str => value Config.default ((t.drop 5).take 5)
    let dated := fun t : Str => datecheck (word t / 10000) (word t / 100 % 100) (word t % 100) = true
    State.reset.cfg.wellFormed = true ∧ (normStr Config.default (ascii "00C1SKA0JS034000FM00Z7D")).length ≠ 24 ∧
      (bad.length = 24 ∧ ¬ ((∀ ch ∈ bad, ch ∈ Config.default.alphabet) ∧ matching bad)) ∧
      (dateless.length = 24 ∧ ((∀ ch ∈ dateless, ch ∈ Config.default.alphabet) ∧ matching dateless) ∧ ¬ dated dateless) ∧
      (t.length = 24 ∧ ((∀ ch ∈ t, ch ∈ Config.default.alphabet) ∧ matching t) ∧ dated t) :=
  ⟨reset_wellFormed, by decide +kernel, ⟨by decide +kernel, fun h => absurd h.2 (by decide +kernel)⟩,
    ⟨by decide +kernel, ⟨symbols_of_all (by decide +kernel), by decide +kernel⟩, by decide +kernel⟩,
    ⟨by decide +kernel, ⟨symbols_of_all (by decide +kernel), by decide +kernel⟩, by decide +kernel⟩⟩

theorem witness_SplitCutsAtTheOffsets :
    State.reset.cfg.wellFormed = true ∧ (normStr Config.default (ascii "SHORT")).length ≠ 24 ∧
    (normStr Config.default (List.replicate 24 0x21)).length = 24 := by decide +kernel

theorem witness_IsvfIsLengthAlphabetAndChecksum : State.reset.cfg.wellFormed = true := reset_wellFormed

theorem witness_DecodeOfComposeGivesTheFieldsBack :
    State.reset.cfg.wellFormed = true ∧ 33554431 < 32 ^ 5 ∧ 32767 < 32 ^ 3 ∧
    isdate 2100 12 31 = true ∧ 1970 ≤ 2100 ∧ 2100 ≤ 2100 ∧
    0 ≤ (9223372036854775807 : Int) := by decide +kernel

/-- V69: a data symbol at index 2 and the last checksum symbol changed. -/
theorem witness_TamperedCodesAreInvalidChecksum :
    State.reset.cfg.wellFormed = true ∧
    exec (.decode code) State.reset = .next (State.reset.answerOk (.r record)) ∧
    (0x44 : Nat) ∈ Config.default.alphabet ∧ (normStr Config.default code)[2]? ≠ some 0x44 ∧
    normStr Config.default (ascii "00D1SKA0JS034000FM00Z7D9") = (normStr Config.default code).set 2 0x44 ∧
    (0x30 : Nat) ∈ Config.default.alphabet ∧ (normStr Config.default code)[23]? ≠ some 0x30 ∧
    normStr Config.default (ascii "00C1SKA0JS034000FM00Z7D0") = (normStr Config.default code).set 23 0x30 :=
  ⟨reset_wellFormed, reset_answers (by decide +kernel), by decide +kernel⟩

theorem witness_EquivalentSpellingsAreAnsweredAlike :
    State.reset.cfg.wellFormed = true ∧ (0x2D : Nat) ∈ State.reset.cfg.separators ∧ upper 0x61 = upper 0x41 ∧
    ((0x4F : Nat), (0x30 : Nat)) ∈ State.reset.cfg.confuse := by decide +kernel

end Sys2Proof.Tests
end

/-! Settles the obligations of spec/00_scope.md: how a step treats the oldest request, an empty port, and a configuration
that is not well formed. -/

namespace Sys2Proof.Machine

/-- R8, R144: `perform` tests the configuration before it looks at the answer, so no instruction escapes the refusal. -/
theorem exec_malformed {s : State} (h : s.cfg.wellFormed = false) (i : Instr) :
    exec i s = .refused .configNotWellFormed := by
  rw [exec_eq_perform, perform_malformed h]

/-- Settles O7: the step law for a request that decodes, which needs no premise on the configuration. -/
theorem stepRunsTheDecodedInstruction : Obligations.StepRunsTheDecodedInstruction :=
  fun _ _ _ _ _ hreq hdec => step_instr hreq hdec

/-- Settles O8: the step law for an empty port. -/
theorem noRequestMeansNoChange : Obligations.NoRequestMeansNoChange :=
  fun _ hwf hnone => step_no_request hwf hnone

/-- Settles O17: `exec`, `step` and `generate` each test the configuration first. -/
theorem malformedConfigurationGivesNoStep : Obligations.MalformedConfigurationGivesNoStep :=
  fun _ h => ⟨exec_malformed h, step_malformed h, fun _ _ => generate_malformed h⟩

end Sys2Proof.Machine

/-! Settles the obligations of spec/10_state.md: the invariant at reset and along every step, the frame and the inputs of
an operation, and the constant configuration. First the laws they rest on: what the decoder reads fits, what a step and a
run can do, which requests are refused, and the shapes of the results. -/

namespace Sys2Proof.Machine

/-! ## The operands the decoder reads fit the widths of `CFG` (R22) -/

theorem fieldAt_lt (p : Bits) (skip w : Nat) : fieldAt p skip w < 2 ^ w :=
  (bitsNat_lt _).trans_le (Nat.pow_le_pow_right (by norm_num) (List.length_take_le _ _))

theorem ConfigFacts.takeChars_strFits {c : Config} (hc : ConfigFacts c) {p : Bits} {str : Str}
    (h : takeChars c.widths.charW p = some str) : strFits c str = true := by
  have hw : 0 < c.widths.charW := Nat.lt_of_lt_of_le (by norm_num) hc.charW
  exact (strFits_iff c str).mpr ((takeChars_eq_some hw).mp h).1

theorem takeFixed_natFits {w v : Nat} {p : Bits} (h : takeFixed w p = some v) : natFits w v = true :=
  decide_eq_true (takeFixed_eq_some.mp h).1

theorem composeOf_wellFormed {c : Config} {p : Bits} {i : Instr} (h : composeOf c.widths p = some i) :
    i.wellFormed c = true := by
  unfold composeOf at h
  split at h
  · obtain rfl := Option.some.inj h
    simp [Instr.wellFormed, natFits, fieldAt_lt, (intBits_signedOf (fieldAt_lt _ _ _)).1]
  · cases h

/-- The operands read from a payload fit, whatever the operation. -/
theorem ConfigFacts.decodePayload_wellFormed {c : Config} (hc : ConfigFacts c) {op : Op} {width : Nat} {p : Bits}
    {i : Instr} (hwidth : width < 32) (h : decodePayload c.widths op width p = some i) : i.wellFormed c = true := by
  cases op
  case enc =>
    simp only [decodePayload] at h
    split at h
    · rename_i hw
      obtain ⟨v, hv, rfl⟩ := Option.map_eq_some_iff.mp h
      simp only [Instr.wellFormed, hwidth, hw, decide_true, Bool.and_self, Bool.true_and]
      exact takeFixed_natFits hv
    · cases h
  case encc | isvc =>
    obtain ⟨v, hv, rfl⟩ := Option.map_eq_some_iff.mp h
    exact takeFixed_natFits hv
  case compose => exact composeOf_wellFormed h
  -- the twelve operations on a string
  all_goals
    obtain ⟨str, hstr, rfl⟩ := Option.map_eq_some_iff.mp h
    exact hc.takeChars_strFits hstr

theorem decode_eq_instr {c : Config} {r : Request} {i : Instr} (h : decode c r = .instr i) :
    ∃ op, decodePayload c.widths op (headerWidth r.header).toNat r.payload = some i := by
  unfold decode at h
  split at h
  · cases h
  · rename_i op _
    split_ifs at h
    split at h
    · rename_i j hj
      cases h
      exact ⟨op, hj⟩
    · cases h

theorem ConfigFacts.decode_wellFormed {c : Config} (hc : ConfigFacts c) {r : Request} {i : Instr}
    (h : decode c r = .instr i) : i.wellFormed c = true := by
  obtain ⟨op, hop⟩ := decode_eq_instr h
  exact hc.decodePayload_wellFormed (headerWidth r.header).isLt hop

/-! ## What a step and a run can do -/

/-- Everything a step can do when it goes on: it waits, it answers `IllegalRequest`, or it runs an instruction. -/
theorem step_next_cases {s t : State} (h : step s = .next t) :
    s.cfg.wellFormed = true ∧
      ((s.requests = [] ∧ t = s) ∨
        ∃ r rest, s.requests = r :: rest ∧
          ((∃ why, decode s.cfg r = .illegal why ∧
              t = { s with requests := rest, response := some ⟨.failed .illegalRequest, none⟩ }) ∨
            ∃ i, decode s.cfg r = .instr i ∧ exec i { s with requests := rest } = .next t)) := by
  cases hwf : s.cfg.wellFormed with
  | false => rw [step_malformed hwf] at h; cases h
  | true =>
    refine ⟨rfl, ?_⟩
    cases hreq : s.requests with
    | nil =>
      rw [step_no_request hwf hreq] at h
      cases h
      exact .inl ⟨rfl, rfl⟩
    | cons r rest =>
      refine .inr ⟨r, rest, rfl, ?_⟩
      cases hd : decode s.cfg r with
      | instr i => exact .inr ⟨i, rfl, (step_instr hreq hd).symm.trans h⟩
      | illegal why =>
        rw [step_illegal hwf hreq hd] at h
        cases h
        exact .inl ⟨why, rfl, rfl⟩
      | notOfFormat f => rw [step_not_of_format hwf hreq hd] at h; cases h

/-- The frame of an operation: another response, and nothing else. -/
theorem exec_next_frame {i : Instr} {s t : State} (h : exec i s = .next t) :
    ∃ r : Response, t = { s with response := some r } := by
  rw [exec_eq_perform] at h
  obtain ⟨-, ⟨res, -, rfl⟩ | ⟨f, -, rfl⟩⟩ := perform_next_cases h
  · exact ⟨_, rfl⟩
  · exact ⟨_, rfl⟩

theorem step_cfg {s t : State} (h : step s = .next t) : t.cfg = s.cfg := by
  obtain ⟨-, ⟨-, rfl⟩ | ⟨r, rest, -, ⟨why, -, rfl⟩ | ⟨i, -, hexec⟩⟩⟩ := step_next_cases h
  · rfl
  · rfl
  · obtain ⟨_, rfl⟩ := exec_next_frame hexec
    rfl

theorem run_succ_next {M : Host.Core} {n : Nat} {s t : M.State} (h : M.run (n + 1) s = .next t) :
    ∃ u, M.step s = .next u ∧ M.run n u = .next t := by
  unfold Host.Core.run at h
  split at h
  · exact ⟨_, ‹_›, h⟩
  · cases h
  · cases h

/-- What every step of a machine keeps, every run of it keeps. -/
theorem run_keeps {M : Host.Core} {P : M.State → Prop} (hstep : ∀ s t, P s → M.step s = .next t → P t) (n : Nat)
    {s t : M.State} (hs : P s) (h : M.run n s = .next t) : P t := by
  induction n generalizing s with
  | zero => cases h; exact hs
  | succ n ih =>
    obtain ⟨u, hu, hrun⟩ := run_succ_next h
    exact ih (hstep s u hs hu) hrun

/-! ## Which requests are refused (R138) -/

/-- What is not refused is answered, on every well-formed machine by the same response. -/
theorem perform_answered {a : Answer Result} (h : ∀ q, a ≠ .refuse q) :
    ∃ r : Response, ∀ s : State, s.cfg.wellFormed = true → perform a s = .next { s with response := some r } := by
  cases a with
  | ok res => exact ⟨⟨.ok, some res⟩, fun _ hwf => perform_ok hwf res⟩
  | raise f => exact ⟨⟨.failed f, none⟩, fun _ hwf => perform_raise hwf f⟩
  | refuse q => exact absurd rfl (h q)

theorem exec_refused_iff {s : State} (hwf : s.cfg.wellFormed = true) (i : Instr) :
    (∃ q, exec i s = .refused q) ↔ refuses s.cfg i = true := by
  cases i with
  | enc w v => rw [exec_enc hwf]; split <;> simp [refuses]
  | encc v => simp [exec_encc hwf, refuses]
  | dec str => rw [exec_dec hwf]; split_ifs <;> simp_all [refuses]
  | norm str => simp [exec_norm hwf, refuses]
  | isvc ch => simp [exec_isvc hwf, refuses]
  | crc str =>
    rw [exec_crc hwf]
    by_cases hnil : normStr s.cfg str = []
    · simp [hnil, refuses]
    · split_ifs <;> simp [hnil, refuses]
  | append str =>
    rw [exec_append hwf]
    by_cases hnil : normStr s.cfg str = []
    · simp [hnil, refuses]
    · split_ifs <;> simp [hnil, refuses]
  | extract str => rw [exec_extract hwf]; split <;> simp_all [refuses]
  | strip str => rw [exec_strip hwf]; split <;> simp_all [refuses]
  | validate str =>
    rw [exec_validate hwf]
    split_ifs with hshort
    · simp [refuses, hshort.ne]
    all_goals simp_all [refuses]
  | compose ev y m d cat seat seq => rw [exec_compose hwf]; split_ifs <;> simp_all [refuses]
  | decode str => rw [exec_decode hwf]; dsimp only; split_ifs <;> simp [refuses]
  | format str => rw [exec_format hwf]; split <;> simp_all [refuses, imp_iff_not_or]
  | rmdash str => simp [exec_rmdash hwf, refuses]
  | isvf str => simp [exec_isvf hwf, refuses]
  | split str => rw [exec_split hwf]; split <;> simp [refuses]

/-! ## The shapes of the results (R23, R51, R154) -/

theorem dateWord_of_parts (w : Nat) : dateWord (wordYear w) (wordMonth w) (wordDay w) = w := by
  unfold wordYear wordMonth wordDay dateWord
  omega

theorem ConfigFacts.codeRecord_trusted {c : Config} (hc : ConfigFacts c) {t : Str} (hlen : t.length = 24)
    (hgood : checksumGood c t = true)
    (hdate : datecheck (wordYear (codeDate c t)) (wordMonth (codeDate c t)) (wordDay (codeDate c t)) = true) :
    recordTrusted c (codeRecord c t) = true := by
  have hsym := ((checksumGood_iff c t).mp hgood).1
  obtain ⟨hev, hy, hm, hd, hcat, hseat, hseq⟩ := hc.codeRecord_fields hlen hsym hdate
  have hid : (codeRecord c t).id = t := rfl
  have hcs : (codeRecord c t).cs = (Segments.ofCode t).seg5 := rfl
  have hword : value c (Segments.ofCode t).seg1 = codeDate c t := rfl
  simp [recordTrusted, hid, hcs, hlen, hgood, hev, hy, hm, hd, hcat, hseat, hseq, hdate, hword, dateWord_of_parts]

theorem segmentsShaped_ofCode {t : Str} (hlen : t.length = 24) : segmentsShaped (Segments.ofCode t) = true := by
  obtain ⟨h0, h1, h2, h3, h4, h5⟩ := segments_length hlen
  simp [segmentsShaped, h0, h1, h2, h3, h4, h5]

theorem ConfigFacts.strFits_dashed {c : Config} (hc : ConfigFacts c) {t : Str} (ht : allSymbols c t = true) :
    strFits c (dashed t) = true := by
  have hdash : charFits c dash = true :=
    decide_eq_true ((by decide : dash < 2 ^ 7).trans_le (Nat.pow_le_pow_right (by norm_num) hc.charW))
  obtain ⟨h0, h1, h2, h3, h4, h5⟩ := segments_allSymbols ht
  simp [dashed, hdash, hc.strFits_symbols, h0, h1, h2, h3, h4, h5]

/-! ## The invariant -/

theorem stateInv_answerOk {s : State} (hwf : s.cfg.wellFormed = true) {res : Result}
    (hres : resultShaped s.cfg res = true) : stateInv (s.answerOk res) = true := by
  simp [stateInv, hwf, responseShaped, hres]

theorem stateInv_raise {s : State} (hwf : s.cfg.wellFormed = true) (f : Failure) : stateInv (s.raise f) = true := by
  simp [stateInv, hwf, responseShaped]

/-- An operation whose operands fit answers a result of its shape, or a failure without one. -/
theorem exec_establishes_stateInv {s t : State} (hwf : s.cfg.wellFormed = true) {i : Instr}
    (hi : i.wellFormed s.cfg = true) (h : exec i s = .next t) : stateInv t = true := by
  have hc := (configFacts_iff s.cfg).mp hwf
  have hsymbols : ∀ str, allSymbols s.cfg str = true → stateInv (s.answerOk (.s str)) = true :=
    fun _ hstr => stateInv_answerOk hwf (hc.strFits_symbols hstr)
  cases i with
  | enc w v =>
    rw [exec_enc hwf] at h
    split_ifs at h <;> cases h
    · exact hsymbols _ (hc.digits_allSymbols v w)
    · exact stateInv_raise hwf _
  | encc v =>
    rw [exec_encc hwf] at h
    cases h
    exact hsymbols _ (hc.digits_allSymbols v _)
  | dec str =>
    rw [exec_dec hwf] at h
    split_ifs at h with _ _ hlt <;> cases h
    · exact stateInv_answerOk hwf (decide_eq_true (not_le.mp hlt))
    · exact stateInv_raise hwf _
  | norm str =>
    rw [exec_norm hwf] at h
    cases h
    exact stateInv_answerOk hwf (hc.strFits_normStr hi)
  | isvc ch =>
    rw [exec_isvc hwf] at h
    cases h
    exact stateInv_answerOk hwf rfl
  | crc str =>
    rw [exec_crc hwf] at h
    split_ifs at h <;> cases h
    · exact hsymbols _ (hc.checksum_allSymbols _)
    · exact stateInv_raise hwf _
  | append str =>
    rw [exec_append hwf] at h
    split_ifs at h <;> cases h
    · refine stateInv_answerOk hwf ((strFits_append ..).trans (Bool.and_eq_true_iff.mpr ⟨hi, ?_⟩))
      exact hc.strFits_symbols (hc.checksum_allSymbols _)
    · exact stateInv_raise hwf _
  | extract str =>
    rw [exec_extract hwf] at h
    split_ifs at h
    cases h
    exact stateInv_answerOk hwf (strFits_of_subset hi fun _ => List.mem_of_mem_drop)
  | strip str =>
    rw [exec_strip hwf] at h
    split_ifs at h
    cases h
    exact stateInv_answerOk hwf (strFits_of_subset hi fun _ => List.mem_of_mem_take)
  | validate str =>
    rw [exec_validate hwf] at h
    split_ifs at h <;> cases h <;> exact stateInv_answerOk hwf rfl
  | compose ev y m d cat seat seq =>
    rw [exec_compose hwf] at h
    split_ifs at h <;> cases h
    · exact stateInv_raise hwf _
    · exact hsymbols _ (by simp [hc.dataSymbols_allSymbols, hc.checksum_allSymbols])
    · exact stateInv_raise hwf _
  | decode str =>
    rw [exec_decode hwf] at h
    dsimp only at h
    split_ifs at h with hlen hgood hdate <;> cases h
    · exact stateInv_answerOk hwf (hc.codeRecord_trusted hlen hgood hdate)
    all_goals exact stateInv_raise hwf _
  | format str =>
    rw [exec_format hwf] at h
    split_ifs at h with hcode
    cases h
    exact stateInv_answerOk hwf (hc.strFits_dashed hcode.2)
  | rmdash str =>
    rw [exec_rmdash hwf] at h
    cases h
    exact stateInv_answerOk hwf (strFits_of_subset hi fun _ hch => (List.mem_filter.mp hch).1)
  | isvf str =>
    rw [exec_isvf hwf] at h
    cases h
    exact stateInv_answerOk hwf rfl
  | split str =>
    rw [exec_split hwf] at h
    split_ifs at h with hlen <;> cases h
    · refine stateInv_answerOk hwf (Bool.and_eq_true_iff.mpr ⟨segmentsShaped_ofCode hlen, ?_⟩)
      rw [segments_join]
      exact hc.strFits_normStr hi
    · exact stateInv_raise hwf _

/-- Settles O11: the decoder reads only operands that fit, and on these every operation answers in shape. -/
theorem everyStepKeepsTheInvariant : Obligations.EveryStepKeepsTheInvariant := by
  intro s t hinv h
  obtain ⟨hwf, ⟨-, rfl⟩ | ⟨r, rest, -, ⟨why, -, rfl⟩ | ⟨i, hd, hexec⟩⟩⟩ := step_next_cases h
  · exact hinv
  · exact stateInv_raise (s := { s with requests := rest }) hwf .illegalRequest
  · have hi : i.wellFormed s.cfg = true := ((configFacts_iff s.cfg).mp hwf).decode_wellFormed hd
    exact exec_establishes_stateInv (s := { s with requests := rest }) hwf hi hexec

/-- Settles O12: the frame that every operation has from `perform`. -/
theorem operationsWriteOnlyTheResponse : Obligations.OperationsWriteOnlyTheResponse :=
  fun _ _ _ _ h => exec_next_frame h

/-- Settles O13: the answer is a function of the configuration and the operands, and only refused requests have none. -/
theorem theStepIsAFunctionOfConfigAndRequest : Obligations.TheStepIsAFunctionOfConfigAndRequest := by
  intro i s s' hwf hcfg
  have hwf' : s'.cfg.wellFormed = true := hcfg ▸ hwf
  have hexec : exec i s = perform (answerOf s.cfg i) s := exec_eq_perform i s
  have hexec' : exec i s' = perform (answerOf s.cfg i) s' := hcfg ▸ exec_eq_perform i s'
  refine ⟨fun hadm => ?_, fun q hq => ?_⟩
  · have hans : ∀ q, answerOf s.cfg i ≠ .refuse q := fun q hq => by
      have href := (exec_refused_iff hwf i).mp ⟨q, by rw [hexec, hq, perform_refuse hwf]⟩
      simp [href] at hadm
    obtain ⟨r, hr⟩ := perform_answered hans
    exact ⟨r, hexec.trans (hr s hwf), hexec'.trans (hr s' hwf')⟩
  · rw [hexec, perform_eq_refused hwf] at hq
    rw [hexec', hq, perform_refuse hwf']

/-- Settles O14: no step writes the configuration, so no run does. -/
theorem noRunChangesTheConfiguration : Obligations.NoRunChangesTheConfiguration :=
  fun n s _ _ h =>
    run_keeps (M := core) (P := fun u : State => u.cfg = s.cfg) (fun _ _ hu hstep => (step_cfg hstep).trans hu) n rfl h

theorem default_wellFormed : Config.default.wellFormed = true := by decide

/-- Settles O10: the default configuration is well formed, and the reset state has nothing on its ports. -/
theorem invariantHoldsAtReset : Obligations.InvariantHoldsAtReset :=
  ⟨default_wellFormed, by simp [stateInv, State.reset, default_wellFormed], rfl, rfl⟩

end Sys2Proof.Machine

/-! Settles the obligations of spec/20_memory.md: a request is answered from the configuration and its own bits alone,
whatever stood before it in the queue (R43), and the codes 0x80 to 0xFF are inert (R39). -/

namespace Sys2Proof.Machine

/-! ## What a request is answered, and what a run leaves of the queue (R6, R43) -/

/-- The answer to a request, a function of the configuration and the request (R32): the port plays no part. -/
def requestAnswer (c : Config) (r : Request) : Answer Result :=
  match decode c r with
  | .instr i => answerOf c i
  | .illegal _ => .raise .illegalRequest
  | .notOfFormat _ => .refuse .payloadNotOfFormat

theorem step_eq_perform {s : State} {r : Request} {rest : List Request} (hwf : s.cfg.wellFormed = true)
    (h : s.requests = r :: rest) : step s = perform (requestAnswer s.cfg r) { s with requests := rest } := by
  cases hd : decode s.cfg r with
  | instr i => simp only [requestAnswer, hd, step_instr h hd, exec_eq_perform]
  | illegal why => simp [requestAnswer, hd, step_illegal hwf h hd, perform, hwf, State.raise]
  | notOfFormat f => simp [requestAnswer, hd, step_not_of_format hwf h hd, perform, hwf]

/-- Two states of one configuration that hold the same request at the head of their queues answer it alike, or refuse it
alike. -/
theorem step_alike {s s' : State} {r : Request} {rest rest' : List Request} (hwf : s.cfg.wellFormed = true)
    (hcfg : s'.cfg = s.cfg) (h : s.requests = r :: rest) (h' : s'.requests = r :: rest') :
    (∃ resp : Response, step s = .next { s with requests := rest, response := some resp } ∧
      step s' = .next { s' with requests := rest', response := some resp }) ∨
    ∃ q, step s = .refused q ∧ step s' = .refused q := by
  have hwf' : s'.cfg.wellFormed = true := hcfg ▸ hwf
  rw [step_eq_perform hwf h, step_eq_perform hwf' h', congrArg (requestAnswer · r) hcfg]
  cases requestAnswer s.cfg r with
  | ok res => exact .inl ⟨_, perform_ok (by exact hwf) res, perform_ok (by exact hwf') res⟩
  | raise f => exact .inl ⟨_, perform_raise (by exact hwf) f, perform_raise (by exact hwf') f⟩
  | refuse q => exact .inr ⟨q, perform_refuse (by exact hwf) q, perform_refuse (by exact hwf') q⟩

theorem step_requests {s t : State} (h : step s = .next t) : t.requests = s.requests.tail := by
  obtain ⟨-, ⟨hnil, rfl⟩ | ⟨r, rest, hreq, ⟨why, -, rfl⟩ | ⟨i, -, hexec⟩⟩⟩ := step_next_cases h
  · simp [hnil]
  · simp [hreq]
  · obtain ⟨_, rfl⟩ := exec_next_frame hexec
    simp [hreq]

/-- A run of `n` steps takes the `n` oldest requests off the port. -/
theorem run_requests {n : Nat} {s t : State} (h : Host.Core.run core n s = .next t) :
    t.requests = s.requests.drop n := by
  induction n generalizing s with
  | zero => cases h; rfl
  | succ n ih =>
    obtain ⟨u, hu, hrun⟩ := run_succ_next h
    rw [ih hrun, step_requests hu, List.drop_tail]

/-- Settles O15: the run leaves the request at the head of the queue and the configuration as it was, and the answer is a
function of these two. -/
theorem requestsAreIndependent : Obligations.RequestsAreIndependent := by
  intro s t before after r hwf hreq hrun
  have htcfg : t.cfg = s.cfg := noRunChangesTheConfiguration _ s t hwf hrun
  have htreq : t.requests = r :: after := by rw [run_requests hrun, hreq, List.drop_left]
  refine ⟨htreq, fun u hucfg hureq => ?_⟩
  obtain ⟨resp, ht, hu⟩ | ⟨q, ht, hu⟩ := step_alike (htcfg ▸ hwf) (hucfg.trans htcfg.symm) htreq hureq
  · simp [ht, hu]
  · simp [ht, hu]

/-! ## The codes 0x80 to 0xFF (R39) -/

theorem isHighCode_iff (ch : Nat) : isHighCode ch = true ↔ 0x80 ≤ ch ∧ ch ≤ 0xFF := by simp [isHighCode]

theorem highCode_not_lower {ch : Nat} (h : isHighCode ch = true) : isLowerLetter ch = false := by
  rw [isHighCode_iff] at h
  simp only [isLowerLetter, Bool.and_eq_false_iff, decide_eq_false_iff_not]
  omega

theorem upperLetter_not_highCode {ch : Nat} (h : isUpperLetter ch = true) : isHighCode ch = false := by
  simp only [isUpperLetter, isHighCode, Bool.and_eq_true, decide_eq_true_eq, Bool.and_eq_false_iff,
    decide_eq_false_iff_not] at *
  omega

theorem asciiDigits_not_highCode : ∀ ch ∈ asciiDigits, isHighCode ch = false := by decide

section
variable {c : Config} (hc : ConfigFacts c) {ch : Nat} (hhigh : isHighCode ch = true)
include hc hhigh

theorem ConfigFacts.highCode_not_symbol : ch ∉ c.alphabet := fun hmem => by
  have hlow := (hc.classes ch hmem).elim (asciiDigits_not_highCode ch) upperLetter_not_highCode
  simp [hlow] at hhigh

theorem ConfigFacts.highCode_not_sep : ch ∉ c.separators := fun hmem => by
  simp [hc.sepLow ch hmem] at hhigh

theorem ConfigFacts.highCode_not_key : ch ∉ c.confuse.map Prod.fst := fun hmem => by
  simp [hc.keyLow ch hmem] at hhigh

theorem ConfigFacts.nchar_highCode : nchar c ch = [ch] := by
  simp [nchar, upper_of_not_lower (highCode_not_lower hhigh), hc.highCode_not_sep hhigh,
    remap_of_not_key (hc.highCode_not_key hhigh)]

theorem ConfigFacts.validChar_highCode : validChar c ch = false := by
  simp [validChar, inA, upper_of_not_lower (highCode_not_lower hhigh), remap_of_not_key (hc.highCode_not_key hhigh),
    hc.highCode_not_symbol hhigh]

end

/-- Settles O59: a high code is of none of the classes that `upper`, `NORM` and `ISVC` act on. -/
theorem highCodesAreInert : Obligations.HighCodesAreInert := by
  intro s ch pre post hwf hlo hhi
  have hc := (configFacts_iff s.cfg).mp hwf
  have hhigh : isHighCode ch = true := (isHighCode_iff ch).mpr ⟨hlo, hhi⟩
  have hkey : ∀ v, (ch, v) ∉ s.cfg.confuse := fun v hv => hc.highCode_not_key hhigh (List.mem_map_of_mem hv)
  refine ⟨upper_of_not_lower (highCode_not_lower hhigh), hc.highCode_not_symbol hhigh, hc.highCode_not_sep hhigh, hkey,
    ?_, normStr s.cfg pre, normStr s.cfg post, exec_norm hwf pre, exec_norm hwf post, ?_⟩
  · rw [exec_isvc hwf, hc.validChar_highCode hhigh]
  · rw [exec_norm hwf, normStr_append, normStr_cons, hc.nchar_highCode hhigh, List.singleton_append]

end Sys2Proof.Machine

/-! Settles the obligations of spec/30_encoding.md: decoder and encoder undo each other, which requests are well formed and
which illegal, and a response is read back from its bits; and the identities of R65 for `COMPOSE` and `ISVF`. -/

namespace Sys2Proof.Machine

/-! ## The header (R57, R60, R62) -/

theorem ofCode_eq_some {code : BitVec 5} {op : Op} : Op.ofCode code = some op ↔ op.code = code := by
  constructor
  · intro h
    simpa using List.find?_some h
  · rintro rfl
    exact ofCode_code op

/-- A header without reserved bits is made of its operation and its width. -/
theorem header_of_fields {h : BitVec 16} (hres : headerReserved h = 0) {op : Op} (hop : op.code = headerOp h) :
    header op (headerWidth h) = h := by
  have hhigh : (0#6 : BitVec 6) = h.extractLsb' 10 6 := hres.symm
  calc header op (headerWidth h)
      = h.extractLsb' 10 6 ++ h.extractLsb' 5 5 ++ h.extractLsb' 0 5 := by rw [header, hop, hhigh]; rfl
    _ = h.extractLsb' 5 11 ++ h.extractLsb' 0 5 := by
      rw [BitVec.extractLsb'_append_extractLsb'_eq_extractLsb' (by norm_num)]
    _ = h.extractLsb' 0 16 := BitVec.extractLsb'_append_extractLsb'_eq_extractLsb' (by norm_num)
    _ = h := BitVec.extractLsb'_eq_self

/-- R62: the request's header is legal and asks for `op`. -/
structure LegalFor (r : Request) (op : Op) : Prop where
  code     : Op.ofCode (headerOp r.header) = some op
  reserved : headerReserved r.header = 0
  width    : headerWidth r.header = 0 ∨ op = .enc

theorem legal_iff (r : Request) : r.legal = true ↔ ∃ op, LegalFor r op := by
  simp only [Request.legal]
  constructor
  · intro h
    split at h
    · cases h
    · rename_i op hop
      simp only [Bool.and_eq_true, Bool.or_eq_true, beq_iff_eq] at h
      exact ⟨op, hop, h.1, h.2⟩
  · rintro ⟨op, hop, hres, hwidth⟩
    simpa [hop, hres] using hwidth

/-- R139: the header is judged before the payload, so an illegal one is enough. -/
theorem decode_of_illegal (c : Config) {r : Request} (h : ¬ r.legal = true) : ∃ why, decode c r = .illegal why := by
  rw [legal_iff] at h
  unfold decode
  split
  · exact ⟨_, rfl⟩
  · rename_i op hop
    split_ifs with hres hwidth
    · exact ⟨_, rfl⟩
    · exact ⟨_, rfl⟩
    · exact absurd ⟨op, hop, not_not.mp hres, by tauto⟩ h

theorem decode_of_legalFor (c : Config) {r : Request} {op : Op} (h : LegalFor r op) :
    decode c r = (decodePayload c.widths op (headerWidth r.header).toNat r.payload).elim
      (.notOfFormat op.reqFormat) .instr := by
  obtain ⟨hop, hres, hwidth⟩ := h
  have hwidth' : ¬ (headerWidth r.header ≠ 0 ∧ op ≠ .enc) := by tauto
  simp only [decode, hop, hres, hwidth', ne_eq, not_true_eq_false, if_false]
  cases decodePayload c.widths op (headerWidth r.header).toNat r.payload <;> rfl

/-- A request decodes to an instruction when its header is legal and its payload is read as the operands. -/
theorem decode_eq_instr_iff {c : Config} {r : Request} {i : Instr} :
    decode c r = .instr i ↔
      ∃ op, LegalFor r op ∧ decodePayload c.widths op (headerWidth r.header).toNat r.payload = some i := by
  constructor
  · intro h
    by_cases hlegal : r.legal = true
    · obtain ⟨op, hop⟩ := (legal_iff r).mp hlegal
      rw [decode_of_legalFor c hop] at h
      cases hp : decodePayload c.widths op (headerWidth r.header).toNat r.payload with
      | none => rw [hp] at h; cases h
      | some j =>
        rw [hp] at h
        cases h
        exact ⟨op, hop, hp⟩
    · obtain ⟨why, hwhy⟩ := decode_of_illegal c hlegal
      rw [hwhy] at h
      cases h
  · rintro ⟨op, hop, hp⟩
    rw [decode_of_legalFor c hop, hp]
    rfl

/-! ## The payload (R58) -/

theorem ConfigFacts.charW_pos {c : Config} (hc : ConfigFacts c) : 0 < c.widths.charW :=
  Nat.lt_of_lt_of_le (by norm_num) hc.charW

theorem fieldAt_natBits_append {w n : Nat} (hn : n < 2 ^ w) (p : Bits) : fieldAt (natBits w n ++ p) 0 w = n := by
  simp [fieldAt, bitsNat_natBits_of_lt hn]

theorem fieldAt_append_left (w n : Nat) (p : Bits) (v : Nat) : fieldAt (natBits w n ++ p) w v = fieldAt p 0 v := by
  simp [fieldAt]

theorem fieldAt_append_add (w n : Nat) (p : Bits) (skip v : Nat) :
    fieldAt (natBits w n ++ p) (w + skip) v = fieldAt p skip v := by
  rw [fieldAt, ← List.drop_drop, List.drop_left' (natBits_length w n), fieldAt]

theorem fieldAt_whole (p : Bits) : fieldAt p 0 p.length = bitsNat p := by
  simp [fieldAt]

/-- What a field spells, written out again, is the field. -/
theorem natBits_fieldAt {p : Bits} {skip w : Nat} (h : skip + w ≤ p.length) :
    natBits w (fieldAt p skip w) = (p.drop skip).take w := by
  have hlen : ((p.drop skip).take w).length = w := by simp; omega
  have := natBits_bitsNat ((p.drop skip).take w)
  rwa [hlen] at this

/-- The bits up to a field, and the field after them, are the bits up to the next field. -/
theorem take_append_natBits_fieldAt {p : Bits} {skip w : Nat} (h : skip + w ≤ p.length) :
    p.take skip ++ natBits w (fieldAt p skip w) = p.take (skip + w) := by
  rw [natBits_fieldAt h, List.take_add]

theorem composeOf_payload {c : Config} {ev y m d cat seat : Nat} {seq : Int}
    (h : (Instr.compose ev y m d cat seat seq).wellFormed c = true) :
    composeOf c.widths ((Instr.compose ev y m d cat seat seq).payload c.widths) =
      some (.compose ev y m d cat seat seq) := by
  simp only [Instr.wellFormed, natFits, Bool.and_eq_true, decide_eq_true_eq] at h
  obtain ⟨⟨⟨⟨⟨⟨hev, hy⟩, hm⟩, hd⟩, hcat⟩, hseat⟩, hseq⟩ := h
  have hlast := fieldAt_whole (intBits c.widths.seqW seq)
  rw [intBits_length] at hlast
  simp [composeOf, Instr.payload, Widths.bitsG, Nat.add_assoc, fieldAt_natBits_append, fieldAt_append_left,
    fieldAt_append_add, hev, hy, hm, hd, hcat, hseat, hlast, signedOf_intBits hseq]

/-- The payload that `composeOf` reads is the payload of the `COMPOSE` it gives. -/
theorem payload_of_composeOf {w : Widths} {p : Bits} {i : Instr} (h : composeOf w p = some i) :
    i.op = .compose ∧ i.payload w = p := by
  unfold composeOf at h
  split at h
  · rename_i hlen
    obtain rfl := Option.some.inj h
    simp only [Widths.bitsG] at hlen
    refine ⟨rfl, ?_⟩
    have hfirst : natBits w.valW (fieldAt p 0 w.valW) = p.take w.valW := natBits_fieldAt (by omega)
    rw [Instr.payload, (intBits_signedOf (fieldAt_lt _ _ _)).2, hfirst]
    simp (disch := omega) only [take_append_natBits_fieldAt]
    rw [← hlen, List.take_length]
  · cases h

/-! ## Requests and instructions (R57, R58) -/

/-- The decoder of a payload undoes the encoder of one. -/
theorem ConfigFacts.decodePayload_payload {c : Config} (hc : ConfigFacts c) {i : Instr} (hi : i.wellFormed c = true) :
    decodePayload c.widths i.op i.widthField.toNat (i.payload c.widths) = some i := by
  have hstr : ∀ str, strFits c str = true → takeChars c.widths.charW (putChars c.widths.charW str) = some str :=
    fun str h => takeChars_putChars hc.charW_pos ((strFits_iff c str).mp h)
  have hnum : ∀ w v, natFits w v = true → takeFixed w (natBits w v) = some v :=
    fun w v h => takeFixed_natBits (of_decide_eq_true h)
  cases i
  case enc width value =>
    simp only [Instr.wellFormed, Bool.and_eq_true, decide_eq_true_eq] at hi
    obtain ⟨⟨hlt, hwidth⟩, hvalue⟩ := hi
    simp [decodePayload, Instr.op, Instr.widthField, Instr.payload, Widths.bitsN, Nat.mod_eq_of_lt hlt, hwidth,
      hnum _ _ hvalue]
  case encc | isvc =>
    simp [decodePayload, Instr.op, Instr.payload, Widths.bitsN, Widths.bitsC, hnum _ _ hi]
  case compose => exact composeOf_payload hi
  -- the twelve operations on a string
  all_goals simp [decodePayload, Instr.op, Instr.payload, hstr _ hi]

/-- The encoder of a payload undoes the decoder of one. -/
theorem ConfigFacts.payload_of_decodePayload {c : Config} (hc : ConfigFacts c) {op : Op} {width : Nat} {p : Bits}
    {i : Instr} (h : decodePayload c.widths op width p = some i) : i.op = op ∧ i.payload c.widths = p := by
  have hstr : ∀ str, takeChars c.widths.charW p = some str → putChars c.widths.charW str = p :=
    fun str h => ((takeChars_eq_some hc.charW_pos).mp h).2.symm
  have hnum : ∀ w v, takeFixed w p = some v → natBits w v = p := fun w v h => (takeFixed_eq_some.mp h).2.symm
  cases op
  case enc =>
    simp only [decodePayload] at h
    split at h
    · obtain ⟨v, hv, rfl⟩ := Option.map_eq_some_iff.mp h
      exact ⟨rfl, hnum _ v hv⟩
    · cases h
  case encc | isvc =>
    obtain ⟨v, hv, rfl⟩ := Option.map_eq_some_iff.mp h
    exact ⟨rfl, hnum _ v hv⟩
  case compose => exact payload_of_composeOf h
  -- the twelve operations on a string
  all_goals
    obtain ⟨str, hs, rfl⟩ := Option.map_eq_some_iff.mp h
    exact ⟨rfl, hstr str hs⟩

theorem widthField_of_op_ne_enc {i : Instr} (h : i.op ≠ .enc) : i.widthField = 0 := by
  cases i
  case enc => exact absurd rfl h
  all_goals rfl

/-- R57: the width of a decoded instruction is the header's, or 0 where the header has none. -/
theorem ConfigFacts.widthField_of_decodePayload {c : Config} (hc : ConfigFacts c) {op : Op} {width : BitVec 5}
    {p : Bits} {i : Instr} (hwidth : width = 0 ∨ op = .enc) (h : decodePayload c.widths op width.toNat p = some i) :
    i.widthField = width := by
  by_cases hop : op = .enc
  · subst hop
    simp only [decodePayload] at h
    split at h
    · obtain ⟨v, -, rfl⟩ := Option.map_eq_some_iff.mp h
      simp [Instr.widthField]
    · cases h
  · have hne : i.op ≠ .enc := (hc.payload_of_decodePayload h).1 ▸ hop
    rw [widthField_of_op_ne_enc hne, hwidth.resolve_right hop]

/-- `Request.wellFormed` asks of a legal request what the decoder asks of its width and its payload. -/
theorem decodePayload_isSome (w : Widths) (op : Op) (width : Nat) (p : Bits) :
    (decodePayload w op width p).isSome = ((op != .enc || natFits w.widthW width) && op.reqFormat.fits w p.length) := by
  cases op
  case enc =>
    cases hw : natFits w.widthW width <;> simp [decodePayload, hw, takeFixed_isSome, Op.reqFormat, Format.fits]
  case compose =>
    simp only [decodePayload, composeOf]
    split <;> simp_all [Op.reqFormat, Format.fits]
  -- the operations on one number or one string of the payload
  all_goals simp [decodePayload, takeFixed_isSome, takeChars_isSome, Op.reqFormat, Format.fits]

theorem legalFor_encode (c : Config) (i : Instr) : LegalFor (encode c i) i.op where
  code     := by rw [encode, headerOp_header, ofCode_code]
  reserved := headerReserved_header _ _
  width    := by
    rw [encode, headerWidth_header]
    exact or_iff_not_imp_right.mpr widthField_of_op_ne_enc

/-- Settles O1: the header of an encoding is legal and its payload is read back field by field. -/
theorem decodeOfEncodeIsTheInstruction : Obligations.DecodeOfEncodeIsTheInstruction := by
  intro c i hwf hi
  have hc := (configFacts_iff c).mp hwf
  refine decode_eq_instr_iff.mpr ⟨i.op, legalFor_encode c i, ?_⟩
  rw [encode, headerWidth_header]
  exact hc.decodePayload_payload hi

/-- Settles O2: header and payload of a decoded request are those of its instruction. -/
theorem encodeOfDecodeIsTheRequest : Obligations.EncodeOfDecodeIsTheRequest := by
  intro c r i hwf h
  have hc := (configFacts_iff c).mp hwf
  refine ⟨hc.decode_wellFormed h, ?_⟩
  obtain ⟨op, ⟨hcode, hres, hwidth⟩, hp⟩ := decode_eq_instr_iff.mp h
  obtain ⟨hop, hpayload⟩ := hc.payload_of_decodePayload hp
  rw [encode, hop, hpayload, hc.widthField_of_decodePayload hwidth hp,
    header_of_fields hres (ofCode_eq_some.mp hcode)]

/-- A request with a legal header is well formed exactly when the decoder reads its payload. -/
theorem wellFormed_of_legalFor (c : Config) {r : Request} {op : Op} (h : LegalFor r op) :
    r.wellFormed c = (decodePayload c.widths op (headerWidth r.header).toNat r.payload).isSome := by
  have hlegal : r.legal = true := (legal_iff r).mpr ⟨op, h⟩
  rw [Request.wellFormed, hlegal, h.code, decodePayload_isSome]
  rcases h.width with hzero | rfl
  · simp [hzero, natFits]
  · simp

/-- Settles O3: both sides ask for a legal header, and under one each asks whether the payload is read. -/
theorem wellFormedRequestsAreTheDecodableOnes : Obligations.WellFormedRequestsAreTheDecodableOnes := by
  intro c r _
  constructor
  · intro h
    have hlegal : r.legal = true := by simp only [Request.wellFormed, Bool.and_eq_true] at h; exact h.1.1
    obtain ⟨op, hop⟩ := (legal_iff r).mp hlegal
    rw [wellFormed_of_legalFor c hop] at h
    obtain ⟨i, hi⟩ := Option.isSome_iff_exists.mp h
    exact ⟨i, decode_eq_instr_iff.mpr ⟨op, hop, hi⟩⟩
  · rintro ⟨i, h⟩
    obtain ⟨op, hop, hi⟩ := decode_eq_instr_iff.mp h
    rw [wellFormed_of_legalFor c hop, hi]
    rfl

/-! ## Illegal headers (R62, R137) -/

theorem toNat_headerOp (h : BitVec 16) : (headerOp h).toNat = h.toNat % 32 := by
  simp [headerOp]

theorem headerReserved_ne_zero (h : BitVec 16) : headerReserved h ≠ 0 ↔ 2 ^ 10 ≤ h.toNat := by
  have hlt := h.isLt
  have hval : (headerReserved h).toNat = h.toNat / 2 ^ 10 % 2 ^ 6 := by
    simp [headerReserved, Nat.shiftRight_eq_div_pow]
  rw [Ne, ← BitVec.toNat_inj, hval]
  simp only [BitVec.ofNat_eq_ofNat, BitVec.toNat_ofNat]
  omega

theorem headerWidth_ne_zero (h : BitVec 16) : headerWidth h ≠ 0 ↔ h.toNat / 32 % 32 ≠ 0 := by
  have hval : (headerWidth h).toNat = h.toNat / 32 % 32 := by
    simp [headerWidth, Nat.shiftRight_eq_div_pow]
  rw [Ne, ← BitVec.toNat_inj, hval]
  rfl

/-- The unassigned codes of R62. -/
theorem ofCode_eq_none : ∀ code : BitVec 5, Op.ofCode code = none ↔
    code.toNat = 0x00 ∨ (0x0B ≤ code.toNat ∧ code.toNat ≤ 0x0F) ∨ 0x16 ≤ code.toNat := by
  decide

theorem toNat_eq_one_iff_enc {code : BitVec 5} {op : Op} (h : Op.ofCode code = some op) :
    code.toNat = 0x01 ↔ op = .enc := by
  rw [← ofCode_eq_some.mp h]
  cases op <;> decide

/-- R62's test by the numbers of the header is the test on its fields. -/
theorem headerIllegal_iff (r : Request) : headerIllegal r.header ↔ ¬ r.legal = true := by
  simp only [headerIllegal, ← toNat_headerOp, ← headerReserved_ne_zero, ← headerWidth_ne_zero]
  rw [← ofCode_eq_none, legal_iff]
  constructor
  · rintro hillegal ⟨op, hcode, hres, hwidth⟩
    have henc := toNat_eq_one_iff_enc hcode
    simp only [hcode, hres] at hillegal
    tauto
  · intro hnone
    cases hcode : Op.ofCode (headerOp r.header) with
    | none => exact .inl rfl
    | some op =>
      have henc := toNat_eq_one_iff_enc hcode
      by_contra hlegal
      exact hnone ⟨op, hcode, by tauto, by tauto⟩

/-- R138: what an operation raises stands in its row. -/
theorem answerOf_raise_canAnswer {c : Config} {i : Instr} {f : Failure} (h : answerOf c i = .raise f) :
    canAnswer i.op (.failed f) = true := by
  cases i
  -- these have no failure status at all
  case encc | norm | isvc | rmdash | isvf => cases h
  case extract | strip | format | validate =>
    simp only [answerOf, Answer.map_eq_raise, extractAnswer, stripAnswer, formatAnswer, validateAnswer] at h
    split_ifs at h
  -- the others: each branch that raises
  all_goals
    simp only [answerOf, Answer.map_eq_raise, encAnswer, decAnswer, crcAnswer, appendAnswer, composeAnswer,
      decodeRun_eq, splitAnswer] at h
    split_ifs at h <;> cases h <;> rfl

/-- No operation answers `IllegalRequest`: it stands in no row of R138. -/
theorem exec_response_ne_illegalRequest {i : Instr} {s t : State} (h : exec i s = .next t) :
    t.response ≠ some ⟨.failed .illegalRequest, none⟩ := by
  rw [exec_eq_perform] at h
  obtain ⟨-, ⟨res, -, rfl⟩ | ⟨f, hf, rfl⟩⟩ := perform_next_cases h
  · simp
  · have hrow := answerOf_raise_canAnswer hf
    intro hresp
    obtain rfl : f = .illegalRequest := by simpa using hresp
    cases i <;> cases hrow

/-- Settles O4: the decoder finds a header illegal exactly by R62's numbers, and only such a request is answered so. -/
theorem illegalHeadersAreAnsweredIllegalRequest : Obligations.IllegalHeadersAreAnsweredIllegalRequest := by
  intro s r rest hwf hreq
  constructor
  · intro hillegal
    obtain ⟨why, hwhy⟩ := decode_of_illegal s.cfg ((headerIllegal_iff r).mp hillegal)
    exact step_illegal hwf hreq hwhy
  · intro hlegal t hstep
    obtain ⟨op, hop⟩ := (legal_iff r).mp (not_not.mp (mt (headerIllegal_iff r).mpr hlegal))
    cases hp : decodePayload s.cfg.widths op (headerWidth r.header).toNat r.payload with
    | none =>
      rw [step_not_of_format hwf hreq (by rw [decode_of_legalFor s.cfg hop, hp]; rfl)] at hstep
      cases hstep
    | some i =>
      rw [step_instr hreq (decode_eq_instr_iff.mpr ⟨op, hop, hp⟩)] at hstep
      exact exec_response_ne_illegalRequest hstep

/-! ## Responses (R59, R61) -/

theorem statusOfCode_code (st : Status) : Status.ofCode st.code = some st := by
  cases st with
  | ok => decide
  | failed f => cases f <;> decide

/-- The numeric fields of a record, in R59's order, as one bit vector. -/
def recordNumbers (r : Record) : BitVec 106 :=
  r.ev ++ r.y ++ r.m ++ r.d ++ r.cat ++ r.seat ++ r.seq

theorem record_bits (w : Widths) (r : Record) :
    (Result.r r).bits w = natBits 106 (recordNumbers r).toNat ++ putChars w.charW (r.id ++ r.cs) := by
  simp only [Result.bits, natBits_toNat_append, recordNumbers, putChars_append, List.append_assoc]

/-- The bits at which `takeRecord` cuts the numbers are the fields. -/
theorem recordNumbers_fields (r : Record) :
    (recordNumbers r).extractLsb' 81 25 = r.ev ∧ (recordNumbers r).extractLsb' 69 12 = r.y ∧
      (recordNumbers r).extractLsb' 65 4 = r.m ∧ (recordNumbers r).extractLsb' 60 5 = r.d ∧
      (recordNumbers r).extractLsb' 45 15 = r.cat ∧ (recordNumbers r).extractLsb' 20 25 = r.seat ∧
      (recordNumbers r).extractLsb' 0 20 = r.seq := by
  simp (disch := omega) only [recordNumbers, BitVec.extractLsb'_append_eq_of_le]
  norm_num only
  simp (disch := omega) only [BitVec.extractLsb'_append_eq_of_add_le, BitVec.extractLsb'_eq_self, and_self]

/-- A record is read back from its bits when its strings have their lengths and their characters fit. -/
theorem takeRecord_bits {w : Widths} (hw : 0 < w.charW) {r : Record} (hid : r.id.length = 24) (hcs : r.cs.length = 2)
    (hfit : ∀ ch ∈ r.id ++ r.cs, ch < 2 ^ w.charW) : takeRecord w.charW ((Result.r r).bits w) = some r := by
  have hnumbers : takeFixed 106 (natBits 106 (recordNumbers r).toNat) = some (recordNumbers r).toNat :=
    takeFixed_natBits (recordNumbers r).isLt
  have hlen : (r.id ++ r.cs).length = 26 := by simp [hid, hcs]
  rw [record_bits, takeRecord, List.take_left' (natBits_length ..), List.drop_left' (natBits_length ..), hnumbers,
    takeChars_putChars hw hfit]
  obtain ⟨hev, hy, hm, hd, hcat, hseat, hseq⟩ := recordNumbers_fields r
  simp [hlen, hev, hy, hm, hd, hcat, hseat, hseq, List.take_left' hid, List.drop_left' hid]

/-- The six segments are read back from their bits when they have their lengths and their characters fit. -/
theorem takeSegments_bits {w : Widths} (hw : 0 < w.charW) {g : Segments} (hshape : segmentsShaped g = true)
    (hfit : ∀ ch ∈ g.seg0 ++ g.seg1 ++ g.seg2 ++ g.seg3 ++ g.seg4 ++ g.seg5, ch < 2 ^ w.charW) :
    takeSegments w.charW ((Result.g g).bits w) = some g := by
  simp only [segmentsShaped, Bool.and_eq_true, beq_iff_eq] at hshape
  obtain ⟨⟨⟨⟨⟨h0, h1⟩, h2⟩, h3⟩, h4⟩, h5⟩ := hshape
  rw [Result.bits]
  simp only [← putChars_append, takeSegments, takeChars_putChars hw hfit, segments_ofCode_join h0 h1 h2 h3 h4]
  simp [h0, h1, h2, h3, h4, h5]

theorem ConfigFacts.strFits_of_recordTrusted {c : Config} (hc : ConfigFacts c) {r : Record}
    (h : recordTrusted c r = true) : r.id.length = 24 ∧ r.cs.length = 2 ∧ strFits c (r.id ++ r.cs) = true := by
  simp only [recordTrusted, Bool.and_eq_true, beq_iff_eq] at h
  obtain ⟨⟨⟨⟨⟨⟨⟨⟨hid, hgood⟩, hcs⟩, -⟩, -⟩, -⟩, -⟩, -⟩, -⟩ := h
  have hsym : allSymbols c r.id = true := ((checksumGood_iff c r.id).mp hgood).1
  obtain ⟨-, -, -, -, -, hlen⟩ := segments_length hid
  obtain ⟨-, -, -, -, -, hcssym⟩ := segments_allSymbols hsym
  exact ⟨hid, hcs ▸ hlen, by simp [hc.strFits_symbols hsym, hcs, hc.strFits_symbols hcssym]⟩

/-- A result of its shape is read back from its bits, whatever its kind. -/
theorem ConfigFacts.takeResult_bits {c : Config} (hc : ConfigFacts c) {res : Result} (h : resultShaped c res = true) :
    takeResult c.widths res.kind (res.bits c.widths) = some res := by
  cases res with
  | s sout => exact congrArg (Option.map Result.s) (takeChars_putChars hc.charW_pos ((strFits_iff c sout).mp h))
  | v vout => exact congrArg (Option.map Result.v) (takeFixed_natBits (of_decide_eq_true h))
  | b bout => rfl
  | r rec =>
    obtain ⟨hid, hcs, hfit⟩ := hc.strFits_of_recordTrusted h
    have hread := takeRecord_bits hc.charW_pos hid hcs ((strFits_iff c _).mp hfit)
    simp only [Result.kind, takeResult, hread, Option.map_some]
  | g segs =>
    obtain ⟨hshape, hfit⟩ := Bool.and_eq_true_iff.mp h
    have hread := takeSegments_bits hc.charW_pos hshape ((strFits_iff c _).mp hfit)
    simp only [Result.kind, takeResult, hread, Option.map_some]

theorem statusOfCode_bits (st : Status) (p : Bits) :
    Status.ofCode (BitVec.ofNat 8 (bitsNat ((natBits 8 st.code.toNat ++ p).take 8))) = some st := by
  rw [List.take_left' (natBits_length ..), bitsNat_natBits_of_lt st.code.isLt, BitVec.ofNat_toNat, BitVec.setWidth_eq,
    statusOfCode_code]

theorem decodeResponse_ok (c : Config) (k : ResultKind) (p : Bits) :
    decodeResponse c k (natBits 8 Status.ok.code.toNat ++ p) =
      (takeResult c.widths k p).map fun res => ⟨.ok, some res⟩ := by
  rw [decodeResponse, if_neg (by simp), statusOfCode_bits, List.drop_left' (natBits_length ..)]

theorem decodeResponse_failed (c : Config) (k : ResultKind) (f : Failure) :
    decodeResponse c k (natBits 8 (Status.failed f).code.toNat ++ []) = some ⟨.failed f, none⟩ := by
  rw [decodeResponse, if_neg (by simp), statusOfCode_bits]
  simp

/-- Settles O6: the status comes back from its eight bits, and by it the rest is read as nothing or as the result. -/
theorem responsesReadBackFromTheirBits : Obligations.ResponsesReadBackFromTheirBits := by
  rintro c k ⟨st, result⟩ hwf hshape hkind
  have hc := (configFacts_iff c).mp hwf
  cases st with
  | ok =>
    cases result with
    | none => cases hshape
    | some res =>
      obtain rfl := hkind res rfl
      exact (decodeResponse_ok c _ _).trans (congrArg (Option.map _) (hc.takeResult_bits hshape))
  | failed f =>
    cases result with
    | none => exact decodeResponse_failed c k f
    | some res => cases hshape

/-! ## `COMPOSE` (R54, R65, R100) -/

theorem exec_enc_eq_answerOk {s : State} (hwf : s.cfg.wellFormed = true) {w v : Nat} {t : Str} :
    exec (.enc w v) s = .next (s.answerOk (.s t)) ↔ v < 32 ^ w ∧ digits s.cfg v w = t := by
  rw [exec_enc hwf]
  split <;> simp_all

/-- Settles O41: the five answers joined are the data symbols of the code, which are their own normalization. -/
theorem composeIsFiveEncAndOneAppend : Obligations.ComposeIsFiveEncAndOneAppend := by
  intro s ev y m d cat seat seq a b g h q hwf hdate hseq ha hb hg hh hq
  have hc := (configFacts_iff s.cfg).mp hwf
  rw [exec_enc_eq_answerOk hwf] at ha hb hg hh hq
  obtain ⟨hev, rfl⟩ := ha
  obtain ⟨hdw, rfl⟩ := hb
  obtain ⟨hcat, rfl⟩ := hg
  obtain ⟨hseat, rfl⟩ := hh
  obtain ⟨-, rfl⟩ := hq
  have hsym := hc.dataSymbols_allSymbols ev (dateWord y m d) cat seat seq.toNat
  have hne : dataSymbols s.cfg ev (dateWord y m d) cat seat seq.toNat ≠ [] := by
    rw [← List.length_pos_iff, dataSymbols_length]
    norm_num
  have hdata : digits s.cfg ev 5 ++ digits s.cfg (y * 10000 + m * 100 + d) 5 ++ digits s.cfg cat 3 ++
      digits s.cfg seat 5 ++ digits s.cfg (seq.toNat % 1048576) 4 =
      dataSymbols s.cfg ev (dateWord y m d) cat seat seq.toNat := rfl
  rw [hdata, exec_append hwf, hc.normStr_symbols hsym, exec_compose hwf, if_pos hdate,
    if_neg (not_lt.mpr hseq), if_pos ⟨hev, hdw, hcat, hseat⟩, if_pos hsym, if_neg hne]

/-- Settles O42: only the sequence modulo 32^4 stands in the data symbols. -/
theorem sequencesWrapModuloTheCapacity : Obligations.SequencesWrapModuloTheCapacity := by
  intro s ev y m d cat seat seq seq' hwf hseq hseq' hmod
  have hnat : seq.toNat % 32 ^ 4 = seq'.toNat % 32 ^ 4 := by omega
  have hdata : dataSymbols s.cfg ev (dateWord y m d) cat seat seq.toNat =
      dataSymbols s.cfg ev (dateWord y m d) cat seat seq'.toNat := by
    simp only [dataSymbols, hnat]
  simp only [exec_compose hwf, hdata, not_lt.mpr hseq, not_lt.mpr hseq']

/-! ## `ISVF` (R65, R122) -/

theorem ConfigFacts.upper_symbol {c : Config} (hc : ConfigFacts c) {ch : Nat} (h : ch ∈ c.alphabet) : upper ch = ch :=
  upper_of_not_lower (hc.symbol_not_lower h)

/-- R8 (d): `remap` leaves a character as it is or gives a symbol. -/
theorem ConfigFacts.remap_fixed_or_symbol {c : Config} (hc : ConfigFacts c) (ch : Nat) :
    remap c ch = ch ∨ remap c ch ∈ c.alphabet := by
  unfold remap
  cases hl : c.confuse.lookup ch with
  | none => exact .inl rfl
  | some v =>
    obtain ⟨l, r, hs, -⟩ := List.lookup_eq_some_iff.mp hl
    exact .inr (hc.mapped (ch, v) (by simp [hs])).1

/-- What stands in a normalized string is changed neither by upper-casing nor by `remap`. -/
theorem ConfigFacts.fixed_of_mem_normStr {c : Config} (hc : ConfigFacts c) {str : Str} {ch : Nat}
    (h : ch ∈ normStr c str) : upper ch = ch ∧ remap c ch = ch := by
  obtain ⟨a, -, ha⟩ := List.mem_flatMap.mp h
  unfold nchar at ha
  split at ha
  · cases ha
  · obtain rfl := List.mem_singleton.mp ha
    rcases hc.remap_fixed_or_symbol (upper a) with hfix | hsym
    · simp [hfix]
    · exact ⟨hc.upper_symbol hsym, remap_of_not_key (hc.notKey _ hsym)⟩

/-- On a normalized character `ISVC` tests the alphabet. -/
theorem ConfigFacts.validChar_of_mem_normStr {c : Config} (hc : ConfigFacts c) {str : Str} {ch : Nat}
    (h : ch ∈ normStr c str) : validChar c ch = true ↔ ch ∈ c.alphabet := by
  obtain ⟨hupper, hremap⟩ := hc.fixed_of_mem_normStr h
  rw [validChar, hupper, hremap, inA_iff]

/-- `DECODE` answers `OK` when none of its three tests fails. -/
theorem exec_decode_ok_iff {s : State} (hwf : s.cfg.wellFormed = true) (str : Str) :
    (∃ rec, exec (.decode str) s = .next (s.answerOk (.r rec))) ↔
      (normStr s.cfg str).length = 24 ∧ checksumGood s.cfg (normStr s.cfg str) = true ∧
        datecheck (wordYear (codeDate s.cfg (normStr s.cfg str))) (wordMonth (codeDate s.cfg (normStr s.cfg str)))
          (wordDay (codeDate s.cfg (normStr s.cfg str))) = true := by
  rw [exec_decode hwf]
  dsimp only
  split_ifs with hlen hgood hdate <;> simp [*]

/-- R122 at the length of a code: symbols, and the checksum stands at index 22. -/
theorem checksumGood_of_length {c : Config} {t : Str} (hlen : t.length = 24) :
    checksumGood c t = true ↔ (∀ ch ∈ t, ch ∈ c.alphabet) ∧ t.drop 22 = checksum c (t.take 22) := by
  rw [checksumGood_iff, allSymbols_iff, hlen]

/-- R65: `ISVC` of every character and `VALIDATE` together test a normalized string of 24 characters. -/
theorem isvc_and_validate_iff {s : State} (hwf : s.cfg.wellFormed = true) {str : Str}
    (hlen : (normStr s.cfg str).length = 24) :
    ((∀ ch ∈ normStr s.cfg str, exec (.isvc ch) s = .next (s.answerOk (.b true))) ∧
      exec (.validate (normStr s.cfg str)) s = .next (s.answerOk (.b true))) ↔
      checksumGood s.cfg (normStr s.cfg str) = true := by
  have hc := (configFacts_iff s.cfg).mp hwf
  have hisvc : (∀ ch ∈ normStr s.cfg str, exec (.isvc ch) s = .next (s.answerOk (.b true))) ↔
      allSymbols s.cfg (normStr s.cfg str) = true := by
    rw [allSymbols_iff]
    refine forall₂_congr fun ch hch => ?_
    rw [← hc.validChar_of_mem_normStr hch, exec_isvc hwf]
    simp
  have hvalidate (hsym : allSymbols s.cfg (normStr s.cfg str) = true) :
      exec (.validate (normStr s.cfg str)) s = .next (s.answerOk (.b true)) ↔
        checksumGood s.cfg (normStr s.cfg str) = true := by
    rw [exec_validate hwf, hc.normStr_symbols hsym]
    simp [hlen, hsym]
  rw [hisvc, and_congr_right hvalidate]
  exact and_iff_right_of_imp fun hgood => ((checksumGood_iff s.cfg _).mp hgood).1

/-- Settles O55: `ISVF` is the first two tests of `DECODE`, and on 24 characters the second is `ISVC` with `VALIDATE`. -/
theorem isvfIsLengthAlphabetAndChecksum : Obligations.IsvfIsLengthAlphabetAndChecksum := by
  refine ⟨⟨rfl, rfl, rfl⟩, fun s str hwf => ?_⟩
  have hb : ((normStr s.cfg str).length == 24 && checksumGood s.cfg (normStr s.cfg str)) = true ↔
      (normStr s.cfg str).length = 24 ∧ checksumGood s.cfg (normStr s.cfg str) = true := by
    rw [Bool.and_eq_true, beq_iff_eq]
  refine ⟨_, exec_isvf hwf str, ?_, ?_, ?_⟩
  · exact hb.trans (and_congr_right checksumGood_of_length)
  · exact hb.trans (and_congr_right fun hlen => (isvc_and_validate_iff hwf hlen).symm)
  · rw [exec_decode_ok_iff hwf, hb, and_assoc]
    rfl

/-- Settles O5: closed facts about the decoder at the default widths, each evaluated. -/
theorem headersOfTheTableDecode : Obligations.HeadersOfTheTableDecode := by
  unfold Obligations.HeadersOfTheTableDecode
  decide

end Sys2Proof.Machine

/-! Settles the obligations of spec/40_codec.md: what `ENC`, `ENCC`, `NORM`, `DEC` and `ISVC` answer, `digits` and `value` as
inverses, and the round trips between the operations. -/

namespace Sys2Proof.Machine

/-! ## `digits` and `value` (R70) -/

theorem ConfigFacts.alphabet_getElem? {c : Config} (hc : ConfigFacts c) {v : Nat} (hv : v < 32) :
    c.alphabet[v]? = some (sym c v) := by
  have hlt : v < c.alphabet.length := by rwa [hc.length]
  simp [sym, hlt]

/-- R70's formula: appending a symbol raises the weight of every earlier one. -/
theorem value_eq_sum (c : Config) (t : Str) :
    value c t = ∑ i ∈ Finset.range t.length, val c (t.getD i 0) * 32 ^ (t.length - 1 - i) := by
  induction t using List.reverseRecOn with
  | nil => rfl
  | append_singleton t ch ih =>
    have hearlier : ∀ i ∈ Finset.range t.length,
        val c ((t ++ [ch]).getD i 0) * 32 ^ (t.length - i) = val c (t.getD i 0) * 32 ^ (t.length - 1 - i) * 32 := by
      intro i hi
      rw [Finset.mem_range] at hi
      rw [List.getD_append _ _ _ _ hi, mul_assoc, ← pow_succ, show t.length - 1 - i + 1 = t.length - i by omega]
    rw [value_concat, ih, List.length_append, List.length_singleton, Finset.sum_range_succ, Finset.sum_mul,
      Nat.add_sub_cancel, Finset.sum_congr rfl hearlier]
    simp

/-- Settles O28: the weighted sum, and the two inverse laws at a fixed length. -/
theorem digitsAndValueAreInverse : Obligations.DigitsAndValueAreInverse := by
  intro c hwf
  have hc := (configFacts_iff c).mp hwf
  refine ⟨value_eq_sum c, fun v w hv => ⟨hc.value_digits hv, digits_length c v w⟩, fun t ht => ?_⟩
  rw [← allSymbols_iff] at ht
  exact ⟨hc.value_lt ht, hc.digits_value ht⟩

/-! ## `ENC` and `ENCC` (R71, R72) -/

/-- A field of `w` symbols holds `5 * w` bits. -/
theorem lt_capacity_of_bits {v n w : Nat} (hv : v < 2 ^ n) (hn : n ≤ 5 * w) : v < 32 ^ w :=
  calc v < 2 ^ n := hv
    _ ≤ 2 ^ (5 * w) := Nat.pow_le_pow_right (by norm_num) hn
    _ = 32 ^ w := by rw [pow_mul]; norm_num

/-- Settles O22: the two branches of `ENC`, and the capacity of a field counted in bits. -/
theorem encGivesTheFieldOrValueOutOfRange : Obligations.EncGivesTheFieldOrValueOutOfRange := by
  refine ⟨⟨rfl, rfl, rfl⟩, fun s w v hwf => ?_⟩
  have hc := (configFacts_iff s.cfg).mp hwf
  refine ⟨fun hv => ⟨digits s.cfg v w, ?_, digits_length _ _ _, fun i hi => ?_, ?_⟩, fun hv => ?_, lt_capacity_of_bits⟩
  · rw [exec_enc hwf, if_pos hv]
  · rw [digits_getElem? _ _ _ hi, hc.alphabet_getElem? (Nat.mod_lt _ (by norm_num))]
  · exact (allSymbols_iff _ _).mp (hc.digits_allSymbols v w)
  · rw [exec_enc hwf, if_neg (not_lt.mpr hv)]

/-- R62: only `ENC` has a `WIDTH`. -/
theorem decode_width_outside_enc (c : Config) {op : Op} (hop : op ≠ .enc) {w : BitVec 5} (hw : w ≠ 0) (p : Bits) :
    decode c ⟨header op w, p⟩ = .illegal .widthNotZero := by
  simp only [decode, headerOp_header, ofCode_code, headerReserved_header, headerWidth_header, ne_eq, not_true_eq_false,
    if_false, if_pos (And.intro hw hop)]

/-- The leading symbol of a field of `w + 1` symbols is the digit of weight `32^w`. -/
theorem digits_succ_head? (c : Config) (v w : Nat) :
    (digits c v (w + 1)).head? = some (sym c (v / 32 ^ w % 32)) := by
  rw [List.head?_eq_getElem?, digits_getElem? c v (w + 1) (by omega)]
  rfl

theorem ConfigFacts.digits_head?_ne_zero {c : Config} (hc : ConfigFacts c) {v w : Nat} (hlo : 32 ^ w ≤ v)
    (hhi : v < 32 ^ (w + 1)) : (digits c v (w + 1)).head? ≠ some (sym c 0) := by
  have hpos : 0 < v / 32 ^ w := Nat.div_pos hlo (by positivity)
  have hlt : v / 32 ^ w < 32 := Nat.div_lt_of_lt_mul (by rwa [pow_succ] at hhi)
  rw [digits_succ_head?, Nat.mod_eq_of_lt hlt]
  intro hzero
  have hval := congrArg (val c) (Option.some.inj hzero)
  rw [hc.val_sym hlt, hc.val_sym (by norm_num)] at hval
  omega

/-- One symbol less than the minimal width does not hold a value other than 0. -/
theorem capacity_le_of_minWidth {v w : Nat} (hv : v ≠ 0) (hw : minWidth v = w + 1) : 32 ^ w ≤ v := by
  obtain ⟨-, -, hleast⟩ := minWidth_spec v
  by_contra hlt
  rw [not_le] at hlt
  cases w with
  | zero => exact hv (by simpa using hlt)
  | succ w =>
    have := hleast (w + 1) (by omega) hlt
    omega

/-- Settles O23: the minimal width is at least 1 and least, so the digit of its leading weight is not 0. -/
theorem enccGivesTheShortestField : Obligations.EnccGivesTheShortestField := by
  refine ⟨⟨rfl, rfl, rfl⟩, fun s v hwf => ⟨fun w p hw => decode_width_outside_enc _ (by decide) hw p, ?_⟩⟩
  have hc := (configFacts_iff s.cfg).mp hwf
  obtain ⟨hone, hcap, hleast⟩ := minWidth_spec v
  refine ⟨minWidth v, exec_encc hwf v, hone, minWidth_le, hcap, hleast, fun hv => ?_⟩
  obtain ⟨w, hw⟩ : ∃ w, minWidth v = w + 1 := ⟨minWidth v - 1, by omega⟩
  rw [hw] at hcap ⊢
  exact hc.digits_head?_ne_zero (capacity_le_of_minWidth hv hw) hcap

/-! ## `NORM` (R73, R76) -/

/-- R73 as three passes: upper-case, drop the separators, remap. -/
theorem normStr_eq_map_filter (c : Config) (str : Str) :
    normStr c str = ((str.map upper).filter fun u => !c.separators.contains u).map (remap c) := by
  induction str with
  | nil => rfl
  | cons ch str ih =>
    rw [normStr_cons, ih, nchar, issep]
    by_cases hsep : c.separators.contains (upper ch) = true
    · rw [if_pos hsep, List.map_cons, List.filter_cons_of_neg (by simpa using hsep), List.nil_append]
    · rw [if_neg hsep, List.map_cons, List.filter_cons_of_pos (by simpa using hsep), List.map_cons,
        List.singleton_append]

/-- Settles O24: `norm` as three passes is the formula of the statement. -/
theorem normDropsSeparatorsAndRemaps : Obligations.NormDropsSeparatorsAndRemaps :=
  ⟨⟨rfl, rfl, rfl⟩, fun s str hwf =>
    ⟨_, exec_norm hwf str, rfl, normStr_length_le s.cfg str, normStr_eq_map_filter s.cfg str⟩⟩

/-- R8 (c), (d): `remap` makes no separator, since its new values are symbols. -/
theorem ConfigFacts.notSep_of_mem_normStr {c : Config} (hc : ConfigFacts c) {str : Str} {ch : Nat}
    (h : ch ∈ normStr c str) : ch ∉ c.separators := by
  rw [normStr_eq_map_filter] at h
  obtain ⟨u, hu, rfl⟩ := List.mem_map.mp h
  rcases hc.remap_fixed_or_symbol u with hfix | hsym
  · rw [hfix]
    simpa using (List.mem_filter.mp hu).2
  · exact hc.notSep _ hsym

theorem ConfigFacts.nchar_of_mem_normStr {c : Config} (hc : ConfigFacts c) {str : Str} {ch : Nat}
    (h : ch ∈ normStr c str) : nchar c ch = [ch] := by
  obtain ⟨hupper, hremap⟩ := hc.fixed_of_mem_normStr h
  simp [nchar, hupper, hremap, hc.notSep_of_mem_normStr h]

theorem ConfigFacts.normStr_normStr {c : Config} (hc : ConfigFacts c) (str : Str) :
    normStr c (normStr c str) = normStr c str :=
  calc (normStr c str).flatMap (nchar c)
      = (normStr c str).flatMap fun ch => [ch] := List.flatMap_congr fun _ => hc.nchar_of_mem_normStr
    _ = normStr c str := List.flatMap_singleton' _

/-- Settles O25: each character of a normalized string is its own normalization. -/
theorem normIsIdempotent : Obligations.NormIsIdempotent := by
  intro s str hwf
  have hc := (configFacts_iff s.cfg).mp hwf
  exact ⟨_, exec_norm hwf str, by rw [exec_norm hwf, hc.normStr_normStr]⟩

/-! ## `DEC` (R74) -/

/-- Settles O26: the four branches of `DEC`. -/
theorem decGivesTheValue : Obligations.DecGivesTheValue := by
  refine ⟨⟨rfl, rfl, rfl⟩, fun s str hwf => ⟨?_, fun hnil => ?_, fun hne hsym => ?_⟩⟩
  · rintro ⟨ch, hmem, hch⟩
    have hbad : ¬ allSymbols s.cfg (normStr s.cfg str) = true := fun h => hch ((allSymbols_iff _ _).mp h ch hmem)
    rw [exec_dec hwf, if_neg hbad]
  · rw [exec_dec hwf, if_pos (by rw [hnil]; rfl), if_pos hnil]
  · rw [exec_dec hwf, if_pos ((allSymbols_iff _ _).mpr hsym), if_neg hne]
    exact ⟨fun hbig => if_pos hbig, fun hfit => if_neg (not_le.mpr hfit)⟩

/-! ## `ISVC` (R75) -/

theorem validChar_iff (c : Config) (ch : Nat) : validChar c ch = true ↔ remap c (upper ch) ∈ c.alphabet :=
  inA_iff c _

theorem normStr_singleton_of_not_sep {c : Config} {ch : Nat} (h : upper ch ∉ c.separators) :
    normStr c [ch] = [remap c (upper ch)] := by
  simp [normStr, nchar, h]

/-- R8 (c), (d): a separator is neither a key nor a symbol. -/
theorem ConfigFacts.validChar_sep {c : Config} (hc : ConfigFacts c) {ch : Nat} (h : upper ch ∈ c.separators) :
    validChar c ch = false := by
  have hkey : upper ch ∉ c.confuse.map Prod.fst := fun hmem => by
    obtain ⟨kv, hkv, hfst⟩ := List.mem_map.mp hmem
    obtain ⟨-, -, hnot⟩ := hc.mapped kv hkv
    exact hnot (hfst ▸ h)
  rw [← Bool.not_eq_true, validChar_iff, remap_of_not_key hkey]
  exact fun hsym => hc.notSep _ hsym h

/-- Settles O27: `ISVC` tests what `norm` keeps of a character that is no separator. -/
theorem isvcTestsTheRemappedCharacter : Obligations.IsvcTestsTheRemappedCharacter := by
  refine ⟨⟨rfl, rfl, rfl⟩, fun s ch hwf => ?_⟩
  have hc := (configFacts_iff s.cfg).mp hwf
  refine ⟨_, exec_isvc hwf ch, validChar_iff s.cfg ch, fun hsep => ?_, hc.validChar_sep⟩
  rw [validChar_iff, normStr_singleton_of_not_sep hsep]
  simp

/-! ## Round trips (R77) -/

/-- `DEC` answers a value when the string normalizes to at least one symbol and its value fits `VAL_W` bits. -/
theorem exec_dec_eq_answerOk {s : State} (hwf : s.cfg.wellFormed = true) {str : Str} {v : Nat} :
    exec (.dec str) s = .next (s.answerOk (.v v)) ↔
      allSymbols s.cfg (normStr s.cfg str) = true ∧ normStr s.cfg str ≠ [] ∧
        value s.cfg (normStr s.cfg str) < 2 ^ s.cfg.widths.valW ∧ value s.cfg (normStr s.cfg str) = v := by
  rw [exec_dec hwf]
  split_ifs with hsym hnil hbig
  · simp [hnil]
  · simp [not_lt.mpr hbig]
  · simp [hsym, hnil, not_le.mp hbig]
  · simp [hsym]

/-- `DEC` of a field of at least one symbol is the number in it. -/
theorem exec_dec_digits {s : State} (hwf : s.cfg.wellFormed = true) {v w : Nat} (hw : 1 ≤ w) (hv : v < 32 ^ w)
    (hfit : natFits s.cfg.widths.valW v = true) :
    exec (.dec (digits s.cfg v w)) s = .next (s.answerOk (.v v)) := by
  have hc := (configFacts_iff s.cfg).mp hwf
  have hsym := hc.digits_allSymbols v w
  have hne : digits s.cfg v w ≠ [] := by
    rw [← List.length_pos_iff, digits_length]
    exact hw
  rw [exec_dec_eq_answerOk hwf, hc.normStr_symbols hsym, hc.value_digits hv]
  exact ⟨hsym, hne, of_decide_eq_true hfit, rfl⟩

/-- Settles O29: `value` undoes `digits` on fields of at least one symbol, and `digits` undoes `value` on what `DEC`
accepts. -/
theorem codecRoundTrips : Obligations.CodecRoundTrips := by
  intro s hwf
  have hc := (configFacts_iff s.cfg).mp hwf
  refine ⟨fun w v hi hw hv => ?_, fun v hi => ?_, fun str v hdec _ => ?_⟩
  · simp only [Instr.wellFormed, Bool.and_eq_true] at hi
    obtain ⟨-, hfit⟩ := hi
    exact ⟨_, (exec_enc_eq_answerOk hwf).mpr ⟨hv, rfl⟩, exec_dec_digits hwf hw hv hfit⟩
  · obtain ⟨hone, hcap, -⟩ := minWidth_spec v
    exact ⟨_, exec_encc hwf v, exec_dec_digits hwf hone hcap hi⟩
  · obtain ⟨hsym, -, -, rfl⟩ := (exec_dec_eq_answerOk hwf).mp hdec
    exact (exec_enc_eq_answerOk hwf).mpr ⟨hc.value_lt hsym, hc.digits_value hsym⟩

end Sys2Proof.Machine

/-! Settles the obligations of spec/41_checksum.md: the generator as a division of polynomials over GF(2), what `CRC`, `APPEND`,
`EXTRACT`, `STRIP` and `VALIDATE` answer, and the errors the checksum detects. First the division, round by round; then the
residue that every good string leaves in the register, from which the detected errors follow. -/

namespace Sys2Proof.Machine

/-! ## Polynomial remainders (R85, R86) -/

theorem polyRem_xor (g k n m : Nat) : polyRem g k (n ^^^ m) = polyRem g k n ^^^ polyRem g k m := by
  induction k generalizing n m with
  | zero => rfl
  | succ k ih =>
    simp only [polyRem, Nat.testBit_xor, ← ih]
    congr 1
    cases n.testBit (k + 10) <;> cases m.testBit (k + 10)
    · rfl
    · exact Nat.xor_assoc n m _
    · exact Nat.xor_right_comm n m _
    · show n ^^^ m = n ^^^ g <<< k ^^^ (m ^^^ g <<< k)
      rw [← Nat.xor_assoc, Nat.xor_right_comm n, Nat.xor_xor_cancel_right]

/-- The first round of a division is a division of the upper part. -/
theorem polyRem_shiftLeft (g k n : Nat) : polyRem g (k + 1) (n <<< k) = polyRem g k (polyRem g 1 n <<< k) := by
  simp only [polyRem, Nat.testBit_shiftLeft, Nat.shiftLeft_zero, Nat.zero_add, Nat.add_sub_cancel_left]
  by_cases h : n.testBit 10 = true
  · simp [h, Nat.shiftLeft_xor_distrib]
  · simp [h]

/-- A round on a polynomial of lower degree does nothing. -/
theorem polyRem_succ_of_lt {k n : Nat} (g : Nat) (h : n < 2 ^ (k + 10)) : polyRem g (k + 1) n = polyRem g k n := by
  simp [polyRem, Nat.testBit_lt_two_pow h]

theorem generatorPoly_lt (poly : BitVec 10) : generatorPoly poly < 2 ^ 11 := by
  have := poly.isLt
  rw [generatorPoly]
  omega

theorem generatorPoly_mod (poly : BitVec 10) : generatorPoly poly % 2 ^ 10 = poly.toNat := by
  rw [generatorPoly, Nat.add_mod_left, Nat.mod_eq_of_lt poly.isLt]

theorem generatorPoly_testBit_ten (poly : BitVec 10) : (generatorPoly poly).testBit 10 = true := by
  rw [generatorPoly, Nat.testBit_two_pow_add_eq, Nat.testBit_lt_two_pow poly.isLt]
  rfl

/-- A round takes a polynomial of degree at most 10 below degree 10. -/
theorem polyRem_one_lt (poly : BitVec 10) {n : Nat} (h : n < 2 ^ 11) : polyRem (generatorPoly poly) 1 n < 2 ^ 10 := by
  refine Nat.lt_pow_two_of_testBit _ fun i hi => ?_
  simp only [polyRem, Nat.zero_add, Nat.shiftLeft_zero]
  rcases hi.eq_or_lt with rfl | hi
  · split_ifs with h10
    · rw [Nat.testBit_xor, h10, generatorPoly_testBit_ten]
      rfl
    · simpa using h10
  · have hpow : 2 ^ 11 ≤ 2 ^ i := Nat.pow_le_pow_right (by norm_num) hi
    have hn : n < 2 ^ i := h.trans_le hpow
    split_ifs
    · exact Nat.testBit_lt_two_pow (Nat.xor_lt_two_pow hn ((generatorPoly_lt poly).trans_le hpow))
    · exact Nat.testBit_lt_two_pow hn

/-! ## The register as a division (R85, R86) -/

/-- One shift is one round of the division: the feedback says whether the shifted register has degree 10. -/
theorem toNat_crcBit (poly r : BitVec 10) (b : Bool) :
    (crcBit poly r b).toNat = polyRem (generatorPoly poly) 1 ((r.toNat <<< 1) ^^^ (b.toNat <<< 10)) := by
  have hr := r.isLt
  have hlt : (r.toNat <<< 1) ^^^ (b.toNat <<< 10) < 2 ^ 11 := by
    refine Nat.xor_lt_two_pow ?_ ?_
    · rw [Nat.shiftLeft_eq]
      omega
    · cases b <;> decide
  have hfb : ((r.toNat <<< 1) ^^^ (b.toNat <<< 10)).testBit 10 = (r.getLsbD 9 ^^ b) := by
    rw [Nat.testBit_xor, Nat.testBit_shiftLeft, Nat.testBit_shiftLeft]
    cases b <;> rfl
  have hmod : ((r.toNat <<< 1) ^^^ (b.toNat <<< 10)) % 2 ^ 10 = (r <<< 1).toNat := by
    rw [Nat.xor_mod_two_pow, BitVec.toNat_shiftLeft, Nat.shiftLeft_eq b.toNat, Nat.mul_mod_left, Nat.xor_zero]
  rw [← Nat.mod_eq_of_lt (polyRem_one_lt poly hlt), polyRem, polyRem, Nat.zero_add, hfb, Nat.shiftLeft_zero, crcBit]
  split_ifs
  · rw [BitVec.toNat_xor, Nat.xor_mod_two_pow, hmod, generatorPoly_mod]
  · exact hmod.symm

theorem bitsNat_cons_eq_xor (b : Bool) (bs : Bits) : bitsNat (b :: bs) = (b.toNat <<< bs.length) ^^^ bitsNat bs := by
  have hlt := bitsNat_lt bs
  rw [bitsNat_cons, ← Nat.div_add_mod ((b.toNat <<< bs.length) ^^^ bitsNat bs) (2 ^ bs.length), Nat.xor_div_two_pow,
    Nat.xor_mod_two_pow, Nat.shiftLeft_eq, Nat.mul_div_cancel _ (by positivity), Nat.div_eq_of_lt hlt, Nat.xor_zero,
    Nat.mul_mod_left, Nat.mod_eq_of_lt hlt, Nat.zero_xor, Nat.mul_comm]

/-- Feeding a bit string into the register divides it, with the register added to its first ten bits. -/
theorem toNat_foldl_crcBit (poly r : BitVec 10) (bs : Bits) :
    (bs.foldl (crcBit poly) r).toNat =
      polyRem (generatorPoly poly) bs.length ((r.toNat <<< bs.length) ^^^ (bitsNat bs <<< 10)) := by
  induction bs generalizing r with
  | nil => simp [polyRem]
  | cons b bs ih =>
    have hrest : bitsNat bs <<< 10 < 2 ^ (bs.length + 10) := by
      rw [Nat.shiftLeft_eq, pow_add]
      exact Nat.mul_lt_mul_of_pos_right (bitsNat_lt bs) (by norm_num)
    rw [List.foldl_cons, ih, toNat_crcBit, polyRem_xor, ← polyRem_shiftLeft, ← polyRem_succ_of_lt _ hrest,
      ← polyRem_xor, List.length_cons, bitsNat_cons_eq_xor, Nat.shiftLeft_xor_distrib, Nat.shiftLeft_xor_distrib,
      Nat.xor_assoc]
    simp only [← Nat.shiftLeft_add, Nat.add_comm]

/-- The bits of a sequence of symbol values in the order the register takes them (R38: bit 4 of a symbol first). -/
def messageBits (vs : List (BitVec 5)) : Bits := putChars 5 (vs.map BitVec.toNat)

theorem messageBits_length (vs : List (BitVec 5)) : (messageBits vs).length = 5 * vs.length := by
  simp [messageBits]

theorem bitsNat_messageBits (vs : List (BitVec 5)) : bitsNat (messageBits vs) = messagePoly vs := by
  induction vs using List.reverseRecOn with
  | nil => rfl
  | append_singleton vs v ih =>
    rw [messageBits] at *
    rw [List.map_append, putChars_append, bitsNat_append, ih]
    simp [messagePoly, putChars_cons, bitsNat_natBits_of_lt v.isLt]

theorem foldl_crcStep_eq_foldl_crcBit (poly r : BitVec 10) (vs : List (BitVec 5)) :
    vs.foldl (crcStep poly) r = (messageBits vs).foldl (crcBit poly) r := by
  induction vs generalizing r with
  | nil => rfl
  | cons v vs ih =>
    rw [messageBits, List.map_cons, putChars_cons, List.foldl_append, List.foldl_cons, ih]
    rfl

/-- R86 from any register. -/
theorem toNat_foldl_crcStep (poly r : BitVec 10) (vs : List (BitVec 5)) :
    (vs.foldl (crcStep poly) r).toNat = polyRem (generatorPoly poly) (5 * vs.length)
      ((r.toNat <<< (5 * vs.length)) ^^^ (messagePoly vs <<< 10)) := by
  rw [foldl_crcStep_eq_foldl_crcBit, toNat_foldl_crcBit, messageBits_length, bitsNat_messageBits]

theorem toNat_crc10 (c : Config) (vs : List (BitVec 5)) :
    (crc10 c vs).toNat = polyRem (generatorPoly c.crcPoly) (5 * vs.length)
      ((c.crcInit.toNat <<< (5 * vs.length)) ^^^ (messagePoly vs <<< 10)) ^^^ c.crcXorOut.toNat := by
  rw [crc10, BitVec.toNat_xor, crcRegister, toNat_foldl_crcStep]

/-- Settles O30: the division of one symbol. -/
theorem crcStepIsAPolynomialStep : Obligations.CrcStepIsAPolynomialStep := by
  refine fun c r v _ => ⟨rfl, ?_⟩
  simpa [messagePoly] using toNat_foldl_crcStep c.crcPoly r [v]

/-- Settles O31: the division of a sequence, from `CRC_INIT`; the parts of `CRC_INIT` and `CRC_XOROUT` cancel in a
difference. -/
theorem crcIsAPolynomialRemainder : Obligations.CrcIsAPolynomialRemainder := by
  refine fun c vs us _ => ⟨toNat_crc10 c vs, fun hlen => ?_⟩
  rw [BitVec.toNat_xor, toNat_crc10, toNat_crc10, ← hlen]
  simp [Nat.shiftLeft_xor_distrib, polyRem_xor, Nat.xor_assoc, Nat.xor_left_comm]

/-! ## Errors of at most ten bits (R93, R94) -/

theorem messagePoly_replicate_zero (n : Nat) : messagePoly (List.replicate n 0) = 0 := by
  induction n with
  | zero => rfl
  | succ n ih => exact ih

/-- At most ten bits act on the register as if they had been added to it and zeros fed instead. -/
theorem foldl_crcStep_eq_zeros (poly r : BitVec 10) {vs : List (BitVec 5)} (hlen : vs.length ≤ 2)
    (hlt : messagePoly vs <<< (10 - 5 * vs.length) < 2 ^ 10) :
    vs.foldl (crcStep poly) r = (List.replicate vs.length 0).foldl (crcStep poly)
      (r ^^^ BitVec.ofNat 10 (messagePoly vs <<< (10 - 5 * vs.length))) := by
  apply BitVec.eq_of_toNat_eq
  rw [toNat_foldl_crcStep, toNat_foldl_crcStep, messagePoly_replicate_zero, List.length_replicate, BitVec.toNat_xor,
    BitVec.toNat_ofNat, Nat.mod_eq_of_lt hlt, Nat.zero_shiftLeft, Nat.xor_zero, Nat.shiftLeft_xor_distrib,
    ← Nat.shiftLeft_add, Nat.sub_add_cancel (by omega)]

section
variable {c : Config} (hc : ConfigFacts c)
include hc

theorem ConfigFacts.messagePoly_symbolValues {t : Str} (ht : allSymbols c t = true) :
    messagePoly (symbolValues c t) = value c t := by
  rw [messagePoly, symbolValues, List.foldl_map, value]
  refine List.foldl_ext _ _ _ fun n ch hch => ?_
  rw [BitVec.toNat_ofNat, Nat.mod_eq_of_lt (hc.val_lt ((allSymbols_iff c t).mp ht ch hch))]

theorem ConfigFacts.value_shiftLeft_lt {t : Str} (ht : allSymbols c t = true) (hlen : t.length ≤ 2) :
    value c t <<< (10 - 5 * t.length) < 2 ^ 10 := by
  have hlt := hc.value_lt ht
  rw [Nat.shiftLeft_eq]
  interval_cases t.length <;> omega

theorem ConfigFacts.foldl_crcStep_symbolValues (r : BitVec 10) {t : Str} (ht : allSymbols c t = true)
    (hlen : t.length ≤ 2) :
    (symbolValues c t).foldl (crcStep c.crcPoly) r = (List.replicate t.length 0).foldl (crcStep c.crcPoly)
      (r ^^^ BitVec.ofNat 10 (value c t <<< (10 - 5 * t.length))) := by
  have h := foldl_crcStep_eq_zeros c.crcPoly r (vs := symbolValues c t)
  simp only [symbolValues_length, hc.messagePoly_symbolValues ht] at h
  exact h hlen (hc.value_shiftLeft_lt ht hlen)

/-- At most two symbols show in the register: the generator does not divide a nonzero polynomial of degree below 10. -/
theorem ConfigFacts.foldl_crcStep_symbolValues_injective {r : BitVec 10} {x y : Str} (hx : allSymbols c x = true)
    (hy : allSymbols c y = true) (hxy : x.length = y.length) (hlen : x.length ≤ 2)
    (h : (symbolValues c x).foldl (crcStep c.crcPoly) r = (symbolValues c y).foldl (crcStep c.crcPoly) r) : x = y := by
  have hlen' : y.length ≤ 2 := hxy ▸ hlen
  rw [hc.foldl_crcStep_symbolValues r hx hlen, hc.foldl_crcStep_symbolValues r hy hlen', hxy] at h
  have hbits := congrArg BitVec.toNat ((BitVec.xor_right_inj r).mp (foldl_crcStep_injective hc.odd _ h))
  have hxlt := hc.value_shiftLeft_lt hx hlen
  rw [hxy] at hxlt
  rw [BitVec.toNat_ofNat, BitVec.toNat_ofNat, Nat.mod_eq_of_lt hxlt, Nat.mod_eq_of_lt (hc.value_shiftLeft_lt hy hlen'),
    Nat.shiftLeft_eq, Nat.shiftLeft_eq] at hbits
  have hvalue : value c x = value c y := Nat.eq_of_mul_eq_mul_right (by positivity) hbits
  rw [← hc.digits_value hx, ← hc.digits_value hy, hvalue, hxy]

/-- The residue: data followed by its checksum leaves a register that depends on `CRC_XOROUT` alone. -/
theorem ConfigFacts.crcRegister_of_checksumGood {t : Str} (h : checksumGood c t = true) :
    crcRegister c (symbolValues c t) = (List.replicate 2 0).foldl (crcStep c.crcPoly) c.crcXorOut := by
  obtain ⟨-, hcs⟩ := (checksumGood_iff c t).mp h
  have hlt : (crc10 c (symbolValues c (t.take (t.length - 2)))).toNat < 32 ^ 2 := BitVec.isLt _
  rw [← List.take_append_drop (t.length - 2) t, hcs, symbolValues_append, crcRegister_append,
    hc.foldl_crcStep_symbolValues _ (hc.checksum_allSymbols _) (checksum_length _ _).le, checksum_length, checksum,
    hc.value_digits hlt]
  simp [crc10]

/-- Two good strings that differ in at most two adjacent symbols are equal. -/
theorem ConfigFacts.eq_of_checksumGood {p x y q : Str} (hx : checksumGood c (p ++ x ++ q) = true)
    (hy : checksumGood c (p ++ y ++ q) = true) (hxy : x.length = y.length) (hlen : x.length ≤ 2) : x = y := by
  have hres := (hc.crcRegister_of_checksumGood hx).trans (hc.crcRegister_of_checksumGood hy).symm
  simp only [symbolValues_append, crcRegister_append] at hres
  obtain ⟨hxs, -⟩ := (checksumGood_iff c _).mp hx
  obtain ⟨hys, -⟩ := (checksumGood_iff c _).mp hy
  simp only [allSymbols_append, Bool.and_eq_true] at hxs hys
  obtain ⟨⟨-, hxs⟩, -⟩ := hxs
  obtain ⟨⟨-, hys⟩, -⟩ := hys
  exact hc.foldl_crcStep_symbolValues_injective hxs hys hxy hlen (foldl_crcStep_injective hc.odd _ hres)

end

/-! ## `VALIDATE` (R92 to R94) -/

theorem not_allSymbols {c : Config} {t : Str} (h : ∃ ch ∈ t, ch ∉ c.alphabet) : ¬ allSymbols c t = true := by
  rw [allSymbols_iff]
  push Not
  exact h

/-- R92 on what is long enough: a character that is no symbol is one more way to be no good code. -/
theorem exec_validate_of_two_lt {s : State} (hwf : s.cfg.wellFormed = true) {str : Str}
    (hlen : 2 < (normStr s.cfg str).length) :
    exec (.validate str) s = .next (s.answerOk (.b (checksumGood s.cfg (normStr s.cfg str)))) := by
  rw [exec_validate hwf]
  split_ifs with hshort hsym htwo
  · omega
  · omega
  · rfl
  · simp [checksumGood, hsym]

theorem exec_validate_true_iff {s : State} (hwf : s.cfg.wellFormed = true) {str : Str} :
    exec (.validate str) s = .next (s.answerOk (.b true)) ↔
      2 < (normStr s.cfg str).length ∧ checksumGood s.cfg (normStr s.cfg str) = true := by
  by_cases hlen : 2 < (normStr s.cfg str).length
  · rw [exec_validate_of_two_lt hwf hlen]
    simp [hlen]
  · rw [exec_validate hwf]
    split_ifs with hshort hsym htwo
    · simp [hlen]
    · simp [hlen]
    · omega
    · simp [hlen]

/-- Settles O36: the branches of `VALIDATE`. -/
theorem validateComparesTheChecksum : Obligations.ValidateComparesTheChecksum := by
  refine ⟨⟨rfl, rfl, rfl⟩, fun s str hwf => ⟨fun hlen => ?_, fun hbad => ?_, fun hsym =>
    ⟨fun hlen => ?_, fun hlen => ?_⟩⟩⟩
  · rw [exec_validate hwf, if_pos hlen]
  · rw [exec_validate hwf, if_neg (not_allSymbols hbad), ite_self]
  · rw [exec_validate hwf, if_neg (by omega), if_pos ((allSymbols_iff _ _).mpr hsym), if_pos hlen]
  · rw [exec_validate_of_two_lt hwf hlen]
    congr 3
    rw [Bool.eq_iff_iff, checksumGood_iff, allSymbols_iff, and_iff_right hsym, decide_eq_true_eq, checksum]

/-- Settles O37: the string as it was and as it is differ in one symbol, of the data or of the checksum; if both are good they
are equal. -/
theorem singleSymbolSubstitutionIsDetected : Obligations.SingleSymbolSubstitutionIsDetected := by
  intro s str str' k ch hwf hvalid hk hset
  have hc := (configFacts_iff s.cfg).mp hwf
  obtain ⟨hlen, hgood⟩ := (exec_validate_true_iff hwf).mp hvalid
  have hlen' : 2 < (normStr s.cfg str').length := by rwa [hset, List.length_set]
  have hsplit (a : Nat) : (normStr s.cfg str).set k a =
      (normStr s.cfg str).take k ++ [a] ++ (normStr s.cfg str).drop (k + 1) := by
    simp [List.set_eq_take_append_cons_drop, hk]
  rw [exec_validate_of_two_lt hwf hlen', hset]
  congr 3
  rw [Bool.eq_iff_iff, decide_eq_true_eq, List.getElem?_eq_getElem hk, Option.some_inj]
  constructor
  · intro hgood'
    rw [← List.set_getElem_self hk, hsplit] at hgood
    rw [hsplit] at hgood'
    exact List.singleton_inj.mp (hc.eq_of_checksumGood hgood hgood' rfl one_le_two)
  · rintro rfl
    rwa [List.set_getElem_self]

theorem set_set_succ {α : Type} {t : List α} {k : Nat} (hk : k + 1 < t.length) (a b : α) :
    (t.set k a).set (k + 1) b = t.take k ++ [a, b] ++ t.drop (k + 2) := by
  induction k generalizing t with
  | zero =>
    match t, hk with
    | _ :: _ :: _, _ => rfl
  | succ k ih =>
    cases t with
    | nil => cases hk
    | cons x t => exact congrArg (x :: ·) (ih (Nat.lt_of_succ_lt_succ hk))

/-- Settles O38: the string as it was and as it is differ in two adjacent symbols; if both are good they are equal. -/
theorem adjacentDataSymbolErrorsAreDetected : Obligations.AdjacentDataSymbolErrorsAreDetected := by
  intro s str str' k a b hwf hvalid hk hset hne
  have hc := (configFacts_iff s.cfg).mp hwf
  obtain ⟨hlen, hgood⟩ := (exec_validate_true_iff hwf).mp hvalid
  have hlen' : 2 < (normStr s.cfg str').length := by rwa [hset, List.length_set, List.length_set]
  have hk' : k + 1 < (normStr s.cfg str).length := by omega
  have hself : ((normStr s.cfg str).set k (normStr s.cfg str)[k]).set (k + 1) (normStr s.cfg str)[k + 1] =
      normStr s.cfg str := by
    rw [List.set_getElem_self, List.set_getElem_self]
  rw [set_set_succ hk'] at hset hself
  rw [exec_validate_of_two_lt hwf hlen']
  congr 3
  rw [Bool.eq_false_iff]
  intro hgood'
  rw [hset] at hgood' hne
  rw [← hself] at hgood
  rw [← hc.eq_of_checksumGood hgood hgood' rfl le_rfl] at hne
  exact hne hself

/-! ## `CRC` and `APPEND` (R88, R89) -/

theorem exec_crc_of_symbols {s : State} (hwf : s.cfg.wellFormed = true) {str : Str} (hne : normStr s.cfg str ≠ [])
    (hsym : ∀ ch ∈ normStr s.cfg str, ch ∈ s.cfg.alphabet) :
    exec (.crc str) s = .next (s.answerOk (.s (checksum s.cfg (normStr s.cfg str)))) := by
  rw [exec_crc hwf, if_pos ((allSymbols_iff _ _).mpr hsym), if_neg hne]

theorem exec_crc_eq_answerOk {s : State} (hwf : s.cfg.wellFormed = true) {str cs : Str} :
    exec (.crc str) s = .next (s.answerOk (.s cs)) ↔
      allSymbols s.cfg (normStr s.cfg str) = true ∧ normStr s.cfg str ≠ [] ∧ checksum s.cfg (normStr s.cfg str) = cs := by
  rw [exec_crc hwf]
  split_ifs with hsym hnil
  · simp [hnil]
  · simp [hsym, hnil]
  · simp [hsym]

theorem exec_append_of_crc {s : State} (hwf : s.cfg.wellFormed = true) {str cs : Str}
    (h : exec (.crc str) s = .next (s.answerOk (.s cs))) :
    exec (.append str) s = .next (s.answerOk (.s (str ++ cs))) := by
  obtain ⟨hsym, hne, rfl⟩ := (exec_crc_eq_answerOk hwf).mp h
  rw [exec_append hwf, if_pos hsym, if_neg hne]

/-- Settles O33: the checksum symbols are their own normalization, so `VALIDATE` reads the data that `CRC` read. -/
theorem appendAddsTheChecksum : Obligations.AppendAddsTheChecksum := by
  refine ⟨⟨rfl, rfl, rfl⟩, fun s str hwf => ⟨fun cs h => ⟨exec_append_of_crc hwf h, ?_⟩, fun f h => ?_, fun q h => ?_⟩⟩
  · have hc := (configFacts_iff s.cfg).mp hwf
    obtain ⟨hsym, hne, rfl⟩ := (exec_crc_eq_answerOk hwf).mp h
    have hpos := List.length_pos_iff.mpr hne
    refine ⟨checksum_length _ _, (exec_validate_true_iff hwf).mpr ?_⟩
    rw [normStr_append, hc.normStr_symbols (hc.checksum_allSymbols _), List.length_append, checksum_length]
    exact ⟨by omega, hc.checksumGood_append hsym⟩
  · have hcrc : crcAnswer s.cfg str = .raise f := Answer.map_eq_raise.mp ((perform_eq_raise hwf).mp h)
    exact (perform_eq_raise hwf).mpr (Answer.map_eq_raise.mpr (Answer.map_eq_raise.mpr hcrc))
  · have hcrc : crcAnswer s.cfg str = .refuse q := Answer.map_eq_refuse.mp ((perform_eq_refused hwf).mp h)
    exact (perform_eq_refused hwf).mpr (Answer.map_eq_refuse.mpr (Answer.map_eq_refuse.mpr hcrc))

theorem digits_two (c : Config) {v : Nat} (hv : v < 2 ^ 10) : digits c v 2 = [sym c (v / 32), sym c (v % 32)] := by
  rw [digits_succ, digits_succ, digits_zero, Nat.mod_eq_of_lt (by omega : v / 32 < 32)]
  rfl

/-- Settles O32: the three branches of `CRC`, and the two digits of a 10-bit number. -/
theorem crcGivesTwoChecksumSymbols : Obligations.CrcGivesTwoChecksumSymbols := by
  refine ⟨⟨rfl, rfl, rfl⟩, fun s str hwf => ⟨fun hbad => ?_, fun hnil => ?_, fun hne hsym => ?_⟩⟩
  · rw [exec_crc hwf, if_neg (not_allSymbols hbad)]
  · rw [exec_crc hwf, if_pos (by rw [hnil]; rfl), if_pos hnil]
  · rw [exec_crc_of_symbols hwf hne hsym, checksum, digits_two _ (BitVec.isLt _)]

/-- Settles O34: `APPEND` follows `CRC`. -/
theorem crcAndAppendComplete : Obligations.CrcAndAppendComplete := by
  intro s str hwf hne hsym
  have hcrc := exec_crc_of_symbols hwf hne hsym
  exact ⟨_, hcrc, exec_append_of_crc hwf hcrc⟩

/-! ## `EXTRACT` and `STRIP` (R90, R91) -/

/-- Settles O35: the two parts of a list before and after an index. -/
theorem extractAndStripCutTheString : Obligations.ExtractAndStripCutTheString := by
  refine ⟨⟨rfl, rfl, rfl⟩, ⟨rfl, rfl, rfl⟩, fun s str hwf => ⟨fun hlen => ?_, fun hlen => ?_⟩⟩
  · refine ⟨_, _, (exec_strip hwf str).trans (if_neg (not_lt.mpr hlen)),
      (exec_extract hwf str).trans (if_neg (not_lt.mpr hlen)), List.take_append_drop _ _, ?_⟩
    rw [List.length_drop]
    omega
  · rw [exec_strip hwf, exec_extract hwf, if_pos hlen, if_pos hlen]
    exact ⟨rfl, rfl⟩

/-! ## Zeros (R87, R159) -/

theorem digits_of_zero (c : Config) (w : Nat) : digits c 0 w = List.replicate w (sym c 0) := by
  simp [digits, List.map_const']

theorem crcStep_zero (poly : BitVec 10) : crcStep poly 0 0 = 0 := by
  simp [crcStep, crcBit]

theorem foldl_crcStep_replicate_zero (poly : BitVec 10) (n : Nat) : (List.replicate n 0).foldl (crcStep poly) 0 = 0 := by
  induction n with
  | zero => rfl
  | succ n ih => rw [List.replicate_succ, List.foldl_cons, crcStep_zero, ih]

/-- R87: with a zero start, leading zeros leave the register at zero. -/
theorem crc10_replicate_zero_append {c : Config} (hinit : c.crcInit = 0) (n : Nat) (vs : List (BitVec 5)) :
    crc10 c (List.replicate n 0 ++ vs) = crc10 c vs := by
  simp only [crc10, crcRegister, List.foldl_append, hinit, foldl_crcStep_replicate_zero]

/-- R159: zeros followed by two zeros are data followed by its checksum. -/
theorem ConfigFacts.checksumGood_zeros {c : Config} (hc : ConfigFacts c) (hinit : c.crcInit = 0) (hxor : c.crcXorOut = 0)
    (n : Nat) : checksumGood c (List.replicate (n + 2) (sym c 0)) = true := by
  have hcrc : crc10 c (symbolValues c (List.replicate n (sym c 0))) = 0 := by
    have hvalues : symbolValues c (List.replicate n (sym c 0)) = List.replicate n 0 ++ [] := by
      simp [symbolValues, hc.val_sym]
    rw [hvalues, crc10_replicate_zero_append hinit, crc10, crcRegister_nil, hinit, hxor]
    rfl
  have hcs : checksum c (List.replicate n (sym c 0)) = List.replicate 2 (sym c 0) := by
    rw [checksum, hcrc, ← digits_of_zero]
    rfl
  rw [← List.replicate_append_replicate, ← hcs]
  exact hc.checksumGood_append (digits_of_zero c n ▸ hc.digits_allSymbols 0 n)

/-- Settles O39: the all-zero code is good, and its date word is 0, which is no date. -/
theorem zeroStartMakesTheAllZeroCodeMatch : Obligations.ZeroStartMakesTheAllZeroCodeMatch := by
  intro s hwf hinit hxor
  have hc := (configFacts_iff s.cfg).mp hwf
  have hgood := hc.checksumGood_zeros hinit hxor 22
  have hnorm := hc.normStr_symbols ((checksumGood_iff _ _).mp hgood).1
  have hdate : codeDate s.cfg (List.replicate 24 (sym s.cfg 0)) = 0 :=
    calc value s.cfg (List.replicate 5 (sym s.cfg 0))
        = value s.cfg (digits s.cfg 0 5) := by rw [digits_of_zero]
      _ = 0 := hc.value_digits (by norm_num)
  refine ⟨crc10_replicate_zero_append hinit, ?_, ?_⟩
  · rw [exec_isvf hwf, hnorm, hgood, List.length_replicate]
    rfl
  · rw [exec_decode hwf, hnorm]
    simp only [List.length_replicate, if_true, hgood, hdate]
    rfl

end Sys2Proof.Machine

/-! Settles the obligations of spec/42_composer.md: what `COMPOSE`, `FORMAT` and `RMDASH` answer, and the host procedures around
them. First the code that `COMPOSE` gives, and what the demultiplexer reads from it. -/

namespace Sys2Proof.Machine

/-! ## Composed codes (R51, R100) -/

/-- R100: every field, and the date word, is below its capacity. -/
abbrev FieldsFit (ev y m d cat seat : Nat) : Prop :=
  ev < 32 ^ 5 ∧ dateWord y m d < 32 ^ 5 ∧ cat < 32 ^ 3 ∧ seat < 32 ^ 5

/-- R100: the data symbols of the fields, followed by their checksum. -/
def composedCode (c : Config) (ev y m d cat seat seq : Nat) : Str :=
  dataSymbols c ev (dateWord y m d) cat seat seq ++ checksum c (dataSymbols c ev (dateWord y m d) cat seat seq)

theorem composeAnswer_eq (c : Config) (ev y m d cat seat : Nat) (seq : Int) :
    composeAnswer c ev y m d cat seat seq =
      if isdate y m d then
        if seq < 0 then .raise .invalidInput
        else if FieldsFit ev y m d cat seat then .ok (composedCode c ev y m d cat seat seq.toNat)
        else .raise .valueOutOfRange
      else .refuse .notADate := by
  simp only [composeAnswer, composedCode, fits, Bool.and_eq_true, decide_eq_true_eq, and_assoc]

theorem exec_compose_of_fit {s : State} (hwf : s.cfg.wellFormed = true) {ev y m d cat seat : Nat} {seq : Int}
    (hdate : isdate y m d = true) (hseq : 0 ≤ seq) (hfit : FieldsFit ev y m d cat seat) :
    exec (.compose ev y m d cat seat seq) s =
      .next (s.answerOk (.s (composedCode s.cfg ev y m d cat seat seq.toNat))) := by
  rw [exec_compose hwf, if_pos hdate, if_neg (not_lt.mpr hseq), if_pos hfit]
  rfl

theorem exec_compose_of_not_fit {s : State} (hwf : s.cfg.wellFormed = true) {ev y m d cat seat : Nat} {seq : Int}
    (hdate : isdate y m d = true) (hseq : 0 ≤ seq) (hfit : ¬ FieldsFit ev y m d cat seat) :
    exec (.compose ev y m d cat seat seq) s = .next (s.raise .valueOutOfRange) := by
  rw [exec_compose hwf, if_pos hdate, if_neg (not_lt.mpr hseq), if_neg hfit]

@[simp] theorem composedCode_length (c : Config) (ev y m d cat seat seq : Nat) :
    (composedCode c ev y m d cat seat seq).length = 24 := by
  simp [composedCode]

section
variable {c : Config} (hc : ConfigFacts c) (ev y m d cat seat seq : Nat)
include hc

theorem ConfigFacts.checksumGood_composedCode : checksumGood c (composedCode c ev y m d cat seat seq) = true :=
  hc.checksumGood_append (hc.dataSymbols_allSymbols _ _ _ _ _)

theorem ConfigFacts.composedCode_allSymbols : allSymbols c (composedCode c ev y m d cat seat seq) = true :=
  ((checksumGood_iff _ _).mp (hc.checksumGood_composedCode ev y m d cat seat seq)).1

theorem ConfigFacts.normStr_composedCode :
    normStr c (composedCode c ev y m d cat seat seq) = composedCode c ev y m d cat seat seq :=
  hc.normStr_symbols (hc.composedCode_allSymbols ev y m d cat seat seq)

variable {ev y m d cat seat}

/-- The date word of a composed code gives the date back. -/
theorem ConfigFacts.codeDate_composedCode (hdate : isdate y m d = true) (hfit : FieldsFit ev y m d cat seat) :
    wordYear (codeDate c (composedCode c ev y m d cat seat seq)) = y ∧
      wordMonth (codeDate c (composedCode c ev y m d cat seat seq)) = m ∧
      wordDay (codeDate c (composedCode c ev y m d cat seat seq)) = d := by
  obtain ⟨hev, hword, hcat, hseat⟩ := hfit
  obtain ⟨-, hm, -, hd⟩ := isdate_bounds hdate
  obtain ⟨-, hcode, -⟩ := hc.dataSymbols_fields seq hev hword hcat hseat
    (checksum c (dataSymbols c ev (dateWord y m d) cat seat seq))
  rw [composedCode, hcode]
  exact dateWord_back hm hd

/-- R123: the record of a composed code of a supported date holds the fields. -/
theorem ConfigFacts.codeRecord_composedCode (hdate : datecheck y m d = true) (hfit : FieldsFit ev y m d cat seat) :
    let r := codeRecord c (composedCode c ev y m d cat seat seq)
    r.ev.toNat = ev ∧ r.y.toNat = y ∧ r.m.toNat = m ∧ r.d.toNat = d ∧ r.cat.toNat = cat ∧ r.seat.toNat = seat ∧
      r.seq.toNat = seq % 32 ^ 4 := by
  obtain ⟨hy, hm, hd⟩ := hc.codeDate_composedCode seq ((datecheck_iff _ _ _).mp hdate).2.2 hfit
  obtain ⟨hev, hword, hcat, hseat⟩ := hfit
  obtain ⟨fev, -, fcat, fseat, fseq, -⟩ := hc.dataSymbols_fields seq hev hword hcat hseat
    (checksum c (dataSymbols c ev (dateWord y m d) cat seat seq))
  obtain ⟨rev, ry, rm, rd, rcat, rseat, rseq⟩ := hc.codeRecord_fields (composedCode_length c ev y m d cat seat seq)
    (hc.composedCode_allSymbols ev y m d cat seat seq) (by rwa [hy, hm, hd])
  exact ⟨rev.trans fev, ry.trans hy, rm.trans hm, rd.trans hd, rcat.trans fcat, rseat.trans fseat, rseq.trans fseq⟩

end

section
variable {s : State} (hwf : s.cfg.wellFormed = true) {ev y m d cat seat : Nat} (seq : Nat)
include hwf

/-- On a composed code only the supported years are left for `DECODE` to test. -/
theorem exec_decode_composedCode (hdate : isdate y m d = true) (hfit : FieldsFit ev y m d cat seat) :
    exec (.decode (composedCode s.cfg ev y m d cat seat seq)) s =
      if datecheck y m d then .next (s.answerOk (.r (codeRecord s.cfg (composedCode s.cfg ev y m d cat seat seq))))
      else .next (s.raise .invalidDate) := by
  have hc := (configFacts_iff s.cfg).mp hwf
  obtain ⟨hy, hm, hd⟩ := hc.codeDate_composedCode seq hdate hfit
  rw [exec_decode hwf, hc.normStr_composedCode]
  dsimp only
  rw [hy, hm, hd, if_pos (composedCode_length _ _ _ _ _ _ _ _), if_pos (hc.checksumGood_composedCode _ _ _ _ _ _ _)]

theorem exec_decode_composedCode_supported (hdate : datecheck y m d = true) (hfit : FieldsFit ev y m d cat seat) :
    exec (.decode (composedCode s.cfg ev y m d cat seat seq)) s =
      .next (s.answerOk (.r (codeRecord s.cfg (composedCode s.cfg ev y m d cat seat seq)))) := by
  rw [exec_decode_composedCode hwf seq ((datecheck_iff _ _ _).mp hdate).2.2 hfit, if_pos hdate]

theorem exec_decode_composedCode_unsupported (hdate : isdate y m d = true) (hfit : FieldsFit ev y m d cat seat)
    (hyear : y < 1970 ∨ 2100 < y) :
    exec (.decode (composedCode s.cfg ev y m d cat seat seq)) s = .next (s.raise .invalidDate) := by
  have hbad : ¬ datecheck y m d = true := by
    rw [datecheck_iff]
    omega
  rw [exec_decode_composedCode hwf seq hdate hfit, if_neg hbad]

end

/-- Settles O40: the branches of `COMPOSE`, and a composed code is good. -/
theorem composePacksTheFields : Obligations.ComposePacksTheFields := by
  refine ⟨⟨rfl, rfl, rfl⟩, fun s ev y m d cat seat seq hwf => ⟨fun hdate => ?_, fun hdate =>
    ⟨fun hseq => ?_, fun hseq hfit => exec_compose_of_not_fit hwf hdate hseq hfit, fun hseq hfit =>
      ⟨exec_compose_of_fit hwf hdate hseq hfit, dataSymbols_length s.cfg ev (dateWord y m d) cat seat seq.toNat,
        composedCode_length s.cfg ev y m d cat seat seq.toNat, ?_⟩⟩⟩⟩
  · rw [exec_compose hwf, if_neg (Bool.eq_false_iff.mp hdate)]
  · rw [exec_compose hwf, if_pos hdate, if_pos hseq]
  · have hc := (configFacts_iff s.cfg).mp hwf
    have hnorm := hc.normStr_composedCode ev y m d cat seat seq.toNat
    have hgood := hc.checksumGood_composedCode ev y m d cat seat seq.toNat
    have hvalidate : exec (.validate (composedCode s.cfg ev y m d cat seat seq.toNat)) s =
        .next (s.answerOk (.b true)) := by
      rw [exec_validate_true_iff hwf, hnorm, composedCode_length]
      exact ⟨by norm_num, hgood⟩
    have hisvf : exec (.isvf (composedCode s.cfg ev y m d cat seat seq.toNat)) s = .next (s.answerOk (.b true)) := by
      rw [exec_isvf hwf, hnorm, hgood, composedCode_length]
      rfl
    exact ⟨hvalidate, hisvf⟩

/-- R100 (c): the date word fits up to the last day of 3355. -/
theorem dateWord_lt_capacity_iff {y m d : Nat} (hdate : isdate y m d = true) : dateWord y m d < 32 ^ 5 ↔ y ≤ 3355 := by
  have hbounds := isdate_bounds hdate
  unfold dateWord
  omega

/-- Settles O43: up to 3355 the date word fits and `COMPOSE` tests no more of the year. -/
theorem yearsAreTestedByDecodeOnly : Obligations.YearsAreTestedByDecodeOnly := by
  intro s ev y m d cat seat seq hwf hdate hseq hev hcat hseat
  have hword := dateWord_lt_capacity_iff hdate
  constructor
  · intro hyear
    refine exec_compose_of_not_fit hwf hdate hseq fun ⟨_, hfits, _⟩ => ?_
    have hle := hword.mp hfits
    omega
  · intro hle hyear
    have hfit : FieldsFit ev y m d cat seat := ⟨hev, hword.mpr hle, hcat, hseat⟩
    exact ⟨_, exec_compose_of_fit hwf hdate hseq hfit, exec_decode_composedCode_unsupported hwf _ hdate hfit hyear⟩

/-! ## `FORMAT` and `RMDASH` (R102, R103, R107) -/

theorem dashed_length {t : Str} (hlen : t.length = 24) : (dashed t).length = 29 := by
  obtain ⟨h0, h1, h2, h3, h4, h5⟩ := segments_length hlen
  simp [dashed, h0, h1, h2, h3, h4, h5]

/-- Settles O44: the two branches of `FORMAT`. -/
theorem formatInsertsFiveDashes : Obligations.FormatInsertsFiveDashes := by
  refine ⟨⟨rfl, rfl, rfl⟩, fun s str hwf => ⟨fun hlen hsym => ?_, fun hbad => ?_⟩⟩
  · rw [← allSymbols_iff] at hsym
    have hlast : (str.drop 22).take 2 = str.drop 22 := List.take_of_length_le (by simp [hlen])
    refine ⟨dashed str, (exec_format hwf str).trans (if_pos ⟨hlen, hsym⟩), dashed_length hlen, ?_⟩
    rw [hlast]
    rfl
  · rw [← allSymbols_iff] at hbad
    exact (exec_format hwf str).trans (if_neg hbad)

/-- Settles O45: `RMDASH` is a filter. -/
theorem rmdashRemovesDashesOnly : Obligations.RmdashRemovesDashesOnly := by
  refine ⟨⟨rfl, rfl, rfl⟩, fun s str hwf => ⟨removeDashes str, exec_rmdash hwf str, List.filter_sublist, ?_, ?_⟩⟩
  · simp [removeDashes, dash]
  · intro ch hch
    exact List.count_filter (bne_iff_ne.mpr hch)

/-- Whatever works piece by piece, drops a dash and keeps symbols undoes the 29-character form. -/
theorem apply_dashed {c : Config} {f : Str → Str} (happend : ∀ t u, f (t ++ u) = f t ++ f u) (hdash : f [dash] = [])
    (hsym : ∀ t, allSymbols c t = true → f t = t) {t : Str} (ht : allSymbols c t = true) : f (dashed t) = t := by
  obtain ⟨h0, h1, h2, h3, h4, h5⟩ := segments_allSymbols ht
  simp only [dashed, happend, hdash, List.append_nil, hsym _ h0, hsym _ h1, hsym _ h2, hsym _ h3, hsym _ h4, hsym _ h5]
  exact segments_join t

theorem ConfigFacts.removeDashes_symbols {c : Config} (hc : ConfigFacts c) {t : Str} (ht : allSymbols c t = true) :
    removeDashes t = t :=
  List.filter_eq_self.mpr fun ch hch => bne_iff_ne.mpr (hc.symbol_not_dash ((allSymbols_iff c t).mp ht ch hch))

theorem ConfigFacts.removeDashes_dashed {c : Config} (hc : ConfigFacts c) {t : Str} (ht : allSymbols c t = true) :
    removeDashes (dashed t) = t :=
  apply_dashed (f := removeDashes) (fun _ _ => List.filter_append _ _) rfl (fun _ => hc.removeDashes_symbols) ht

theorem normStr_dash {c : Config} (h : dash ∈ c.separators) : normStr c [dash] = [] := by
  have hnot : isLowerLetter dash = false := by decide
  simp [normStr, nchar, upper_of_not_lower hnot, (issep_iff c dash).mpr h]

theorem ConfigFacts.normStr_dashed {c : Config} (hc : ConfigFacts c) (h : dash ∈ c.separators) {t : Str}
    (ht : allSymbols c t = true) : normStr c (dashed t) = t :=
  apply_dashed (normStr_append c) (normStr_dash h) (fun _ => hc.normStr_symbols) ht

/-- Settles O46: no symbol is a dash, and none is changed by normalization. -/
theorem rmdashAndNormUndoFormat : Obligations.RmdashAndNormUndoFormat := by
  intro s code hwf hlen hsym
  have hc := (configFacts_iff s.cfg).mp hwf
  rw [← allSymbols_iff] at hsym
  refine ⟨dashed code, (exec_format hwf code).trans (if_pos ⟨hlen, hsym⟩), ?_, fun hsep => ?_⟩
  · rw [exec_rmdash hwf, hc.removeDashes_dashed hsym]
  · rw [exec_norm hwf, hc.normStr_dashed hsep hsym]

/-! ## `fieldvalue`, `generate` and `generateSequence` (R104 to R106) -/

theorem Answer.bind_eq_ok {α β : Type} {a : Answer α} {f : α → Answer β} {y : β} :
    a.bind f = .ok y ↔ ∃ x, a = .ok x ∧ f x = .ok y := by
  cases a <;> simp

theorem Answer.bind_eq_raise {α β : Type} {a : Answer α} {f : α → Answer β} {e : Failure} :
    a.bind f = .raise e ↔ a = .raise e ∨ ∃ x, a = .ok x ∧ f x = .raise e := by
  cases a <;> simp

theorem Answer.bind_eq_refuse {α β : Type} {a : Answer α} {f : α → Answer β} {q : Refusal} :
    a.bind f = .refuse q ↔ a = .refuse q ∨ ∃ x, a = .ok x ∧ f x = .refuse q := by
  cases a <;> simp

section
variable {parseInt : Str → Option Int} {strHash : Str → Nat}

theorem fieldvalue_of_parsed {str : Str} {n : Int} (h : parseInt str = some n) (w : Nat) :
    fieldvalue parseInt strHash str w =
      if n < 0 then .refuse .negativeIdentifier else if n < 32 ^ w then .ok n.toNat else .raise .valueOutOfRange := by
  simp [fieldvalue, h]

theorem fieldvalue_of_not_parsed {str : Str} (h : parseInt str = none) (w : Nat) :
    fieldvalue parseInt strHash str w = .ok (strHash str % 32 ^ w) := by
  simp [fieldvalue, h]

end

/-- Settles O48: the cases of the parse, and of the integer. -/
theorem fieldValuesFollowTheParse : Obligations.FieldValuesFollowTheParse := by
  intro parseInt strHash str w
  cases hparse : parseInt str with
  | some n =>
    have hvalue := fieldvalue_of_parsed (strHash := strHash) hparse w
    split_ifs at hvalue with hneg hlt
    · rw [hvalue]
      exact hneg
    · rw [hvalue]
      exact ⟨not_lt.mp hneg, Int.toNat_of_nonneg (not_lt.mp hneg), fieldvalue_ok hvalue⟩
    · rw [hvalue]
      exact ⟨not_lt.mp hlt, rfl⟩
  | none =>
    have hvalue := fieldvalue_of_not_parsed (strHash := strHash) hparse w
    rw [hvalue]
    exact ⟨rfl, fieldvalue_ok hvalue⟩

/-- Settles O49: a remainder is below the modulus, and the call writes the counter only. -/
theorem generateSequenceDrawsBelowTheCapacity : Obligations.GenerateSequenceDrawsBelowTheCapacity :=
  fun s _ => ⟨Nat.mod_lt (genSeqDraw s.draws) (by norm_num), rfl, rfl, rfl, Nat.succ_ne_self s.draws⟩

section
variable {parseInt : Str → Option Int} {strHash : Str → Nat} {eventID categoryID seatID : Str} {seq : Int}

/-- R104: no identifier is the empty string. -/
abbrev AllNamed (eventID categoryID seatID : Str) : Prop := eventID ≠ [] ∧ categoryID ≠ [] ∧ seatID ≠ []

/-- R105: a string parses as an integer at or above the capacity of `w` symbols. -/
abbrev TooLarge (parseInt : Str → Option Int) (str : Str) (w : Nat) : Prop := ∃ n, parseInt str = some n ∧ 32 ^ w ≤ n

/-- R105: a string parses as a negative integer. -/
abbrev Negative (parseInt : Str → Option Int) (str : Str) : Prop := ∃ n, parseInt str = some n ∧ n < 0

/-- The field values of the three strings are given, and are these numbers. -/
structure FieldsGiven (parseInt : Str → Option Int) (strHash : Str → Nat) (eventID categoryID seatID : Str)
    (n : FieldNumbers) : Prop where
  ev   : fieldvalue parseInt strHash eventID 5 = .ok n.ev
  cat  : fieldvalue parseInt strHash categoryID 3 = .ok n.cat
  seat : fieldvalue parseInt strHash seatID 5 = .ok n.seat

/-- Field values are below their capacities, so only the date word is left for `COMPOSE` to test. -/
theorem FieldsGiven.fit_iff {n : FieldNumbers} (h : FieldsGiven parseInt strHash eventID categoryID seatID n)
    (y m d : Nat) : FieldsFit n.ev y m d n.cat n.seat ↔ dateWord y m d < 32 ^ 5 :=
  ⟨fun ⟨_, hword, _⟩ => hword, fun hword => ⟨fieldvalue_ok h.ev, hword, fieldvalue_ok h.cat, fieldvalue_ok h.seat⟩⟩

theorem invalid_or_accepted (eventID categoryID seatID : Str) (seq : Int) :
    (¬ AllNamed eventID categoryID seatID ∨ seq < 0) ∨ (AllNamed eventID categoryID seatID ∧ 0 ≤ seq) := by
  rw [← not_le]
  tauto

theorem frontEnd_of_invalid (h : ¬ AllNamed eventID categoryID seatID ∨ seq < 0) :
    frontEnd parseInt strHash eventID categoryID seatID seq = .raise .invalidInput := by
  unfold frontEnd
  split_ifs with hempty hseq
  · rfl
  · rfl
  · tauto

theorem frontEnd_of_named (hnamed : AllNamed eventID categoryID seatID) (hseq : 0 ≤ seq) :
    frontEnd parseInt strHash eventID categoryID seatID seq =
      (fieldvalue parseInt strHash eventID 5).bind fun ev =>
      (fieldvalue parseInt strHash categoryID 3).bind fun cat =>
      (fieldvalue parseInt strHash seatID 5).bind fun seat => .ok ⟨ev, cat, seat⟩ := by
  simp [frontEnd, hnamed, not_lt.mpr hseq]

theorem FieldsGiven.frontEnd_eq {n : FieldNumbers} (h : FieldsGiven parseInt strHash eventID categoryID seatID n)
    (hnamed : AllNamed eventID categoryID seatID) (hseq : 0 ≤ seq) :
    frontEnd parseInt strHash eventID categoryID seatID seq = .ok n := by
  rw [frontEnd_of_named hnamed hseq, h.ev, Answer.bind_ok, h.cat, Answer.bind_ok, h.seat, Answer.bind_ok]

/-- The strings and the sequence of a front end that gives the three numbers. -/
theorem frontEnd_ok {n : FieldNumbers} (h : frontEnd parseInt strHash eventID categoryID seatID seq = .ok n) :
    AllNamed eventID categoryID seatID ∧ 0 ≤ seq ∧ FieldsGiven parseInt strHash eventID categoryID seatID n := by
  obtain hinvalid | ⟨hnamed, hseq⟩ := invalid_or_accepted eventID categoryID seatID seq
  · rw [frontEnd_of_invalid hinvalid] at h
    cases h
  · simp only [frontEnd_of_named hnamed hseq, Answer.bind_eq_ok, Answer.ok.injEq] at h
    obtain ⟨ev, hev, cat, hcat, seat, hseat, rfl⟩ := h
    exact ⟨hnamed, hseq, hev, hcat, hseat⟩

/-- The failures of the front end, each with its cause. -/
theorem frontEnd_raise {f : Failure} (h : frontEnd parseInt strHash eventID categoryID seatID seq = .raise f) :
    (f = .invalidInput ∧ (¬ AllNamed eventID categoryID seatID ∨ seq < 0)) ∨
      (AllNamed eventID categoryID seatID ∧ 0 ≤ seq ∧ f = .valueOutOfRange ∧
        (TooLarge parseInt eventID 5 ∨ TooLarge parseInt categoryID 3 ∨ TooLarge parseInt seatID 5)) := by
  obtain hinvalid | ⟨hnamed, hseq⟩ := invalid_or_accepted eventID categoryID seatID seq
  · rw [frontEnd_of_invalid hinvalid] at h
    cases h
    exact .inl ⟨rfl, hinvalid⟩
  · simp only [frontEnd_of_named hnamed hseq, Answer.bind_eq_raise, reduceCtorEq, and_false, exists_false,
      or_false] at h
    obtain hev | ⟨-, -, hcat | ⟨-, -, hseat⟩⟩ := h
    · exact .inr ⟨hnamed, hseq, And.imp_right .inl (fieldvalue_raise hev)⟩
    · exact .inr ⟨hnamed, hseq, And.imp_right (.inr ∘ .inl) (fieldvalue_raise hcat)⟩
    · exact .inr ⟨hnamed, hseq, And.imp_right (.inr ∘ .inr) (fieldvalue_raise hseat)⟩

/-- The refusals of the front end, with their cause. -/
theorem frontEnd_refuse {q : Refusal} (h : frontEnd parseInt strHash eventID categoryID seatID seq = .refuse q) :
    AllNamed eventID categoryID seatID ∧ 0 ≤ seq ∧ q = .negativeIdentifier ∧
      (Negative parseInt eventID ∨ Negative parseInt categoryID ∨ Negative parseInt seatID) := by
  obtain hinvalid | ⟨hnamed, hseq⟩ := invalid_or_accepted eventID categoryID seatID seq
  · rw [frontEnd_of_invalid hinvalid] at h
    cases h
  · simp only [frontEnd_of_named hnamed hseq, Answer.bind_eq_refuse, reduceCtorEq, and_false, exists_false,
      or_false] at h
    obtain hev | ⟨-, -, hcat | ⟨-, -, hseat⟩⟩ := h
    · exact ⟨hnamed, hseq, And.imp_right .inl (fieldvalue_refuse hev)⟩
    · exact ⟨hnamed, hseq, And.imp_right (.inr ∘ .inl) (fieldvalue_refuse hcat)⟩
    · exact ⟨hnamed, hseq, And.imp_right (.inr ∘ .inr) (fieldvalue_refuse hseat)⟩

theorem generate_eq {c : Config} (hwf : c.wellFormed = true) (y m d : Nat) :
    generate parseInt strHash c eventID y m d categoryID seatID seq =
      (frontEnd parseInt strHash eventID categoryID seatID seq).bind fun n =>
        composeAnswer c n.ev y m d n.cat n.seat seq := by
  simp [generate, hwf]

theorem generate_of_invalid {c : Config} (hwf : c.wellFormed = true) (y m d : Nat)
    (h : ¬ AllNamed eventID categoryID seatID ∨ seq < 0) :
    generate parseInt strHash c eventID y m d categoryID seatID seq = .raise .invalidInput := by
  rw [generate_eq hwf, frontEnd_of_invalid h, Answer.bind_raise]

/-- With the three field values given, `generate` tests the date, and the capacity of the date word. -/
theorem FieldsGiven.generate_eq {n : FieldNumbers} (h : FieldsGiven parseInt strHash eventID categoryID seatID n)
    {c : Config} (hwf : c.wellFormed = true) (y m d : Nat) (hnamed : AllNamed eventID categoryID seatID)
    (hseq : 0 ≤ seq) :
    generate parseInt strHash c eventID y m d categoryID seatID seq =
      if isdate y m d then
        if dateWord y m d < 32 ^ 5 then .ok (composedCode c n.ev y m d n.cat n.seat seq.toNat)
        else .raise .valueOutOfRange
      else .refuse .notADate := by
  rw [Machine.generate_eq hwf, h.frontEnd_eq hnamed hseq, Answer.bind_ok, composeAnswer_eq,
    if_neg (not_lt.mpr hseq)]
  simp only [h.fit_iff]

end

/-- Settles O47: the outcome of the front end, and after the three numbers the two tests that `COMPOSE` has left. -/
theorem generatedCodesDecodeToTheFieldValues : Obligations.GeneratedCodesDecodeToTheFieldValues := by
  intro parseInt strHash s eventID y m d categoryID seatID seq hwf
  have hc := (configFacts_iff s.cfg).mp hwf
  refine ⟨?_, generate_of_invalid hwf y m d, fun hnamed hseq ev cat seat hev hcat hseat => ?_⟩
  · cases hfront : frontEnd parseInt strHash eventID categoryID seatID seq with
    | ok n =>
      obtain ⟨hnamed, hseq, hgiven⟩ := frontEnd_ok hfront
      rw [hgiven.generate_eq hwf y m d hnamed hseq]
      split_ifs with hdate hword
      · have hfit := (hgiven.fit_iff y m d).mpr hword
        refine ⟨hnamed, hseq, hdate, fun ⟨hlo, hhi⟩ => ?_,
          exec_decode_composedCode_unsupported hwf seq.toNat hdate hfit⟩
        have hcheck := (datecheck_iff y m d).mpr ⟨hlo, hhi, hdate⟩
        obtain ⟨hev, hy, hm, hd, hcat, hseat, hseq'⟩ := hc.codeRecord_composedCode seq.toNat hcheck hfit
        refine ⟨_, exec_decode_composedCode_supported hwf seq.toNat hcheck hfit, ?_⟩
        rw [hev, hcat, hseat]
        exact ⟨hgiven.ev, hgiven.cat, hgiven.seat, hy, hm, hd, hseq', rfl⟩
      · exact .inr ⟨rfl, hnamed, hseq, .inr (.inr (.inr hword))⟩
      · exact ⟨hnamed, hseq, .inr ⟨rfl, Bool.eq_false_iff.mpr hdate⟩⟩
    | raise f =>
      rw [generate_eq hwf, hfront, Answer.bind_raise]
      obtain hinvalid | ⟨hnamed, hseq, hf, hlarge⟩ := frontEnd_raise hfront
      · exact .inl hinvalid
      · exact .inr ⟨hf, hnamed, hseq, hlarge.imp_right (Or.imp_right .inl)⟩
    | refuse q =>
      rw [generate_eq hwf, hfront, Answer.bind_refuse]
      obtain ⟨hnamed, hseq, hcause⟩ := frontEnd_refuse hfront
      exact ⟨hnamed, hseq, .inl hcause⟩
  · have hgiven : FieldsGiven parseInt strHash eventID categoryID seatID ⟨ev, cat, seat⟩ := ⟨hev, hcat, hseat⟩
    have hout := hgiven.generate_eq hwf y m d hnamed hseq
    exact ⟨fun hdate => hout.trans (if_neg (Bool.eq_false_iff.mp hdate)),
      fun hdate hword => ⟨_, hout.trans ((if_pos hdate).trans (if_pos hword))⟩,
      fun hdate hword => hout.trans ((if_pos hdate).trans (if_neg hword))⟩

/-- An answer that is not `OK` ends what was to go on with it. -/
theorem Answer.bind_ends {α β : Type} {a : Answer α} {f : α → Answer β} {out : Answer β} (hout : out = a.bind f) :
    (∀ e, a = .raise e → out = .raise e) ∧ ∀ q, a = .refuse q → out = .refuse q :=
  ⟨fun e h => by rw [hout, h, Answer.bind_raise], fun q h => by rw [hout, h, Answer.bind_refuse]⟩

theorem Answer.bind_assoc {α β γ : Type} (a : Answer α) (f : α → Answer β) (g : β → Answer γ) :
    (a.bind f).bind g = a.bind fun x => (f x).bind g := by
  cases a <;> rfl

/-- Settles O60: `generate` is a chain of three field values and one `COMPOSE`; each answer that is not `OK` ends it. -/
theorem generateIsItsFrontEndAndOneCompose : Obligations.GenerateIsItsFrontEndAndOneCompose := by
  intro parseInt strHash s eventID y m d categoryID seatID seq hwf
  refine ⟨fun hempty => generate_of_invalid hwf y m d (.inl fun ⟨hev, hcat, hseat⟩ => ?_),
    fun hneg => generate_of_invalid hwf y m d (.inr hneg), fun hevID hcatID hseatID hseq => ?_⟩
  · exact hempty.elim hev fun h => h.elim hcat hseat
  · have hchain := generate_eq (parseInt := parseInt) (strHash := strHash) (eventID := eventID)
      (categoryID := categoryID) (seatID := seatID) (seq := seq) hwf y m d
    rw [frontEnd_of_named ⟨hevID, hcatID, hseatID⟩ hseq, Answer.bind_assoc] at hchain
    refine ⟨Answer.bind_ends hchain, fun ev hev => ?_⟩
    rw [hev, Answer.bind_ok, Answer.bind_assoc] at hchain
    refine ⟨Answer.bind_ends hchain, fun cat hcat => ?_⟩
    rw [hcat, Answer.bind_ok, Answer.bind_assoc] at hchain
    refine ⟨Answer.bind_ends hchain, fun seat hseat => ?_⟩
    rw [hseat, Answer.bind_ok, Answer.bind_ok] at hchain
    have hrun : exec (.compose ev y m d cat seat seq) s =
        perform ((composeAnswer s.cfg ev y m d cat seat seq).map .s) s := exec_eq_perform _ _
    rw [hchain, hrun]
    refine ⟨fun code => ?_, fun f => ?_, fun q => ?_⟩
    · rw [perform_eq_answerOk hwf, Answer.map_eq_ok]
      simp
    · rw [perform_eq_raise hwf, Answer.map_eq_raise]
    · rw [perform_eq_refused hwf, Answer.map_eq_refuse]

end Sys2Proof.Machine

/-! Settles the obligations of spec/43_decomposer.md: the stages of `DECODE`, the calendar behind its date check, `SPLIT`, and what
`DECODE` answers on composed and on tampered codes. -/

namespace Sys2Proof.Machine

/-! ## The calendar (R117, R118) -/

theorem isdate_iff (y m d : Nat) : isdate y m d = true ↔ 1 ≤ m ∧ m ≤ 12 ∧ 1 ≤ d ∧ d ≤ dim y m := by
  simp only [isdate, Bool.and_eq_true, decide_eq_true_eq, and_assoc]

theorem leap_iff (y : Nat) : leap y = true ↔ 400 ∣ y ∨ (4 ∣ y ∧ ¬ 100 ∣ y) := by
  simp only [leap, Bool.and_eq_true, Bool.or_eq_true, beq_iff_eq, bne_iff_ne]
  omega

theorem month_iff (m : Nat) : 1 ≤ m ∧ m ≤ 12 ↔ m ∈ [1, 3, 5, 7, 8, 10, 12] ∨ m ∈ [4, 6, 9, 11] ∨ m = 2 := by
  simp only [List.mem_cons, List.not_mem_nil, or_false]
  omega

theorem dim_of_long {m : Nat} (hm : m ∈ [1, 3, 5, 7, 8, 10, 12]) (y : Nat) : dim y m = 31 := by
  simp only [List.mem_cons, List.not_mem_nil, or_false] at hm
  rw [dim, if_neg (by omega), if_neg (by omega)]

theorem dim_of_short {m : Nat} (hm : m ∈ [4, 6, 9, 11]) (y : Nat) : dim y m = 30 := by
  simp only [List.mem_cons, List.not_mem_nil, or_false] at hm
  rw [dim, if_neg (by omega), if_pos hm]

theorem le_dim_february (y d : Nat) : d ≤ dim y 2 ↔ d ≤ 28 ∨ (d = 29 ∧ leap y = true) := by
  rw [dim, if_pos rfl]
  by_cases h : leap y = true
  · rw [if_pos h, and_iff_left h]
    omega
  · rw [if_neg h, iff_false_intro h, and_false, or_false]

/-- Settles O52: each month is a long one, a short one or February. -/
theorem daysOfTheGregorianCalendar : Obligations.DaysOfTheGregorianCalendar := by
  intro y m d
  rw [isdate_iff, ← leap_iff, ← and_assoc, month_iff]
  constructor
  · rintro ⟨hlong | hshort | rfl, hd, hle⟩
    · exact ⟨hd, .inl ⟨hlong, dim_of_long hlong y ▸ hle⟩⟩
    · exact ⟨hd, .inr (.inl ⟨hshort, dim_of_short hshort y ▸ hle⟩)⟩
    · exact ⟨hd, .inr (.inr ⟨rfl, (le_dim_february y d).mp hle⟩)⟩
  · rintro ⟨hd, ⟨hlong, hle⟩ | ⟨hshort, hle⟩ | ⟨rfl, hle⟩⟩
    · exact ⟨.inl hlong, hd, (dim_of_long hlong y).symm ▸ hle⟩
    · exact ⟨.inr (.inl hshort), hd, (dim_of_short hshort y).symm ▸ hle⟩
    · exact ⟨.inr (.inr rfl), hd, (le_dim_february y d).mpr hle⟩

/-- R117: a date made with excess days carried gives its numbers back when the day exists; a carried day stands in another
month. -/
theorem carriedDate_eq_iff (y m d : Nat) :
    (if d ≤ dim y m then (y, m, d) else (if m = 12 then (y + 1, 1, d - dim y m) else (y, m + 1, d - dim y m)))
        = (y, m, d) ↔ d ≤ dim y m := by
  split_ifs with hle <;> simp [hle]

/-- Settles O53: in range, the re-derivation is the test that the day exists. -/
theorem datecheckIsRangeAndRederivation : Obligations.DatecheckIsRangeAndRederivation := by
  intro y m d
  rw [carriedDate_eq_iff, datecheck_iff]
  constructor
  · rintro ⟨hlow, hhigh, hdate⟩
    obtain ⟨hm, hm', hd, hd'⟩ := isdate_bounds hdate
    exact ⟨⟨hlow, hhigh, hm, hm', hd, hd'⟩, ((isdate_iff y m d).mp hdate).2.2.2⟩
  · rintro ⟨⟨hlow, hhigh, hm, hm', hd, -⟩, hle⟩
    exact ⟨hlow, hhigh, (isdate_iff y m d).mpr ⟨hm, hm', hd, hle⟩⟩

/-! ## The stages of `DECODE` (R115, R116) -/

/-- The date word of a normalized code passes the date check. -/
abbrev codeDated (c : Config) (t : Str) : Bool :=
  datecheck (wordYear (codeDate c t)) (wordMonth (codeDate c t)) (wordDay (codeDate c t))

/-- Stage 3 on 24 characters, as R115 writes it. -/
theorem checksumGood_iff_of_length {c : Config} {t : Str} (hlen : t.length = 24) :
    checksumGood c t = true ↔ (∀ ch ∈ t, ch ∈ c.alphabet) ∧
      t.drop 22 = digits c (crc10 c (symbolValues c (t.take 22))).toNat 2 := by
  rw [checksumGood_iff, allSymbols_iff, hlen, checksum]

/-- Settles O51: the nested tests of a run, each with its stage number. -/
theorem decodeEndsAtTheFirstFailingStage : Obligations.DecodeEndsAtTheFirstFailingStage := by
  intro c str _
  by_cases hlen : (normStr c str).length = 24
  · by_cases hgood : checksumGood c (normStr c str) = true
    · by_cases hdate : codeDated c (normStr c str) = true
      · have hrun : decodeRun c str = (7, .ok (codeRecord c (normStr c str))) :=
          (decodeRun_eq c str).trans ((if_pos hlen).trans ((if_pos hgood).trans (if_pos hdate)))
        rw [hrun]
        exact ⟨rfl, hlen, hgood, hdate⟩
      · have hrun : decodeRun c str = (6, .raise .invalidDate) :=
          (decodeRun_eq c str).trans ((if_pos hlen).trans ((if_pos hgood).trans (if_neg hdate)))
        rw [hrun]
        exact .inr (.inr ⟨rfl, rfl, hlen, hgood, Bool.eq_false_iff.mpr hdate⟩)
    · have hrun : decodeRun c str = (3, .raise .invalidChecksum) :=
        (decodeRun_eq c str).trans ((if_pos hlen).trans (if_neg hgood))
      rw [hrun]
      exact .inr (.inl ⟨rfl, rfl, hlen, Bool.eq_false_iff.mpr hgood⟩)
  · have hrun : decodeRun c str = (2, .raise .invalidLength) := (decodeRun_eq c str).trans (if_neg hlen)
    rw [hrun]
    exact .inl ⟨rfl, rfl, hlen⟩

section
variable {s : State} (hwf : s.cfg.wellFormed = true) {str : Str}
include hwf

theorem exec_decode_of_length_ne (hlen : (normStr s.cfg str).length ≠ 24) :
    exec (.decode str) s = .next (s.raise .invalidLength) := by
  rw [exec_decode hwf]
  exact if_neg hlen

theorem exec_decode_of_not_good (hlen : (normStr s.cfg str).length = 24)
    (hgood : ¬ checksumGood s.cfg (normStr s.cfg str) = true) :
    exec (.decode str) s = .next (s.raise .invalidChecksum) := by
  rw [exec_decode hwf]
  exact (if_pos hlen).trans (if_neg hgood)

theorem exec_decode_of_good (hlen : (normStr s.cfg str).length = 24)
    (hgood : checksumGood s.cfg (normStr s.cfg str) = true) :
    exec (.decode str) s =
      if codeDated s.cfg (normStr s.cfg str) then .next (s.answerOk (.r (codeRecord s.cfg (normStr s.cfg str))))
      else .next (s.raise .invalidDate) := by
  rw [exec_decode hwf]
  exact (if_pos hlen).trans (if_pos hgood)

/-- What `DECODE` accepts has 24 characters and a matching checksum. -/
theorem good_of_exec_decode_eq_answerOk {rec : Record} (h : exec (.decode str) s = .next (s.answerOk (.r rec))) :
    (normStr s.cfg str).length = 24 ∧ checksumGood s.cfg (normStr s.cfg str) = true := by
  by_cases hlen : (normStr s.cfg str).length = 24
  · refine ⟨hlen, ?_⟩
    by_contra hgood
    simp [exec_decode_of_not_good hwf hlen hgood] at h
  · simp [exec_decode_of_length_ne hwf hlen] at h

end

/-- Settles O50: the tests of `DECODE` one after the other; no number of the record is cut off. -/
theorem decodeChecksThenReadsTheFields : Obligations.DecodeChecksThenReadsTheFields := by
  refine ⟨⟨rfl, rfl, rfl⟩, fun s str hwf => ⟨exec_decode_of_length_ne hwf, fun hlen hbad => ?_, fun hlen hgood hdate => ?_,
    fun hlen hgood hdate => ?_⟩⟩
  · exact exec_decode_of_not_good hwf hlen fun h => hbad ((checksumGood_iff_of_length hlen).mp h)
  · rw [exec_decode_of_good hwf hlen ((checksumGood_iff_of_length hlen).mpr hgood)]
    exact if_neg hdate
  · rw [exec_decode_of_good hwf hlen ((checksumGood_iff_of_length hlen).mpr hgood)]
    have hsym := (allSymbols_iff s.cfg (normStr s.cfg str)).mpr hgood.1
    obtain ⟨hev, hy, hm, hd, hcat, hseat, hseq⟩ := ((configFacts_iff s.cfg).mp hwf).codeRecord_fields hlen hsym hdate
    exact ⟨_, if_pos hdate, hev, hy, hm, hd, hcat, hseat, hseq, rfl, rfl⟩

/-! ## `SPLIT` (R121) -/

/-- Settles O54: the two branches of `SPLIT`, and the segments of a string. -/
theorem splitCutsAtTheOffsets : Obligations.SplitCutsAtTheOffsets := by
  refine ⟨⟨rfl, rfl, rfl⟩, fun s str hwf => ⟨fun hlen => ?_, fun hlen => ?_⟩⟩
  · rw [exec_split hwf, if_neg hlen]
  · rw [exec_split hwf, if_pos hlen]
    exact ⟨_, rfl, segments_join _, segments_length hlen⟩

/-! ## Composed and tampered codes (R123, R124) -/

/-- Settles O56: the date word of a supported year fits, so `COMPOSE` gives a code, whose record holds the fields. -/
theorem decodeOfComposeGivesTheFieldsBack : Obligations.DecodeOfComposeGivesTheFieldsBack := by
  intro s ev y m d cat seat seq hwf hev hcat hseat hday hlow hhigh hseq
  have hc := (configFacts_iff s.cfg).mp hwf
  have hdate : datecheck y m d = true := (datecheck_iff y m d).mpr ⟨hlow, hhigh, hday⟩
  have hfit : FieldsFit ev y m d cat seat := ⟨hev, (dateWord_lt_capacity_iff hday).mpr (by omega), hcat, hseat⟩
  obtain ⟨rev, ry, rm, rd, rcat, rseat, rseq⟩ := hc.codeRecord_composedCode seq.toNat hdate hfit
  exact ⟨_, _, exec_compose_of_fit hwf hday hseq hfit, exec_decode_composedCode_supported hwf _ hdate hfit,
    rev, ry, rm, rd, rcat, rseat, rseq, rfl⟩

/-- Settles O57: an accepted code is valid, so by R93 the changed code is not; it still has 24 characters, so stage 3 ends it. -/
theorem tamperedCodesAreInvalidChecksum : Obligations.TamperedCodesAreInvalidChecksum := by
  intro s str str' rec k ch hwf hok hk _ hne hset
  obtain ⟨hlen, hgood⟩ := good_of_exec_decode_eq_answerOk hwf hok
  have hlen' : (normStr s.cfg str').length = 24 := by rw [hset, List.length_set, hlen]
  have hvalid : exec (.validate str) s = .next (s.answerOk (.b true)) :=
    (exec_validate_true_iff hwf).mpr ⟨by omega, hgood⟩
  have hvalid' := singleSymbolSubstitutionIsDetected s str str' k ch hwf hvalid (hk.trans_eq hlen.symm) hset
  refine exec_decode_of_not_good hwf hlen' fun hgood' => ?_
  rw [exec_validate_of_two_lt hwf (by omega), hgood'] at hvalid'
  simp [hne] at hvalid'

end Sys2Proof.Machine

/-! Settles the obligations of spec/60_exceptions.md: which requests are refused, what an admitted one is answered (R138),
that a failure carries no result (R142), and that a queue of admitted requests is answered to its end (R144). -/

namespace Sys2Proof.Machine

/-! ## The last column of R138 -/

/-- Settles O19: the law of the refused requests, one operation at a time. -/
theorem refusedRequestsAreThoseOfTheLastColumn : Obligations.RefusedRequestsAreThoseOfTheLastColumn :=
  fun i _ hwf => exec_refused_iff hwf i

theorem exec_of_admitted {i : Instr} {s : State} (hwf : s.cfg.wellFormed = true) (hadm : refuses s.cfg i = false) :
    ∃ r : Response, exec i s = .next { s with response := some r } :=
  have ⟨r, hr, _⟩ := (theStepIsAFunctionOfConfigAndRequest i s s hwf rfl).1 hadm
  ⟨r, hr⟩

/-! ## The status and the result of an answer (R59, R138, R142) -/

theorem answerOf_ok_kind {c : Config} {i : Instr} {res : Result} (h : answerOf c i = .ok res) :
    res.kind = i.op.resultKind := by
  cases i
  case norm | isvc | rmdash | isvf => cases h; rfl
  -- the others put the constructor of their kind around what they compute
  all_goals
    obtain ⟨x, -, rfl⟩ := Answer.map_eq_ok.mp h
    rfl

theorem canAnswer_ok (op : Op) : canAnswer op .ok = true := by
  cases op <;> rfl

/-- The responses that end an operation: a result with `OK`, or a failure alone. -/
theorem perform_response_cases {a : Answer Result} {s t : State} {r : Response} (h : perform a s = .next t)
    (hr : t.response = some r) :
    (∃ res, a = .ok res ∧ r = ⟨.ok, some res⟩) ∨ ∃ f, a = .raise f ∧ r = ⟨.failed f, none⟩ := by
  obtain ⟨-, ⟨res, ha, rfl⟩ | ⟨f, ha, rfl⟩⟩ := perform_next_cases h
  · exact .inl ⟨res, ha, (Option.some.inj hr).symm⟩
  · exact .inr ⟨f, ha, (Option.some.inj hr).symm⟩

/-- R138, R59: whatever an instruction is answered stands in its row and is of its kind. -/
theorem exec_within_matrix {i : Instr} {s t : State} {r : Response} (h : exec i s = .next t) (hr : t.response = some r) :
    canAnswer i.op r.status = true ∧ ∀ res, r.result = some res → res.kind = i.op.resultKind := by
  rw [exec_eq_perform] at h
  obtain ⟨res, hans, rfl⟩ | ⟨f, hans, rfl⟩ := perform_response_cases h hr
  · refine ⟨canAnswer_ok _, fun res' hres' => ?_⟩
    cases hres'
    exact answerOf_ok_kind hans
  · exact ⟨answerOf_raise_canAnswer hans, fun _ hnone => nomatch hnone⟩

/-- Settles O18: an admitted request is answered; its status and kind are its row's, its shape the invariant's. -/
theorem admittedRequestsAreAnsweredWithinTheMatrix : Obligations.AdmittedRequestsAreAnsweredWithinTheMatrix := by
  intro i s hwf hi hadm
  obtain ⟨r, hr⟩ := exec_of_admitted hwf hadm
  obtain ⟨hrow, hkind⟩ := exec_within_matrix hr rfl
  have hinv : stateInv { s with response := some r } = true := exec_establishes_stateInv hwf hi hr
  have hshape : responseShaped s.cfg r = true := (Bool.and_eq_true_iff.mp hinv).2
  exact ⟨r, hr, hrow, hshape, hkind⟩

/-- Settles O21: a step that answers a request ends through `perform`, which gives no failure a result. -/
theorem failuresCarryNoPartialResult : Obligations.FailuresCarryNoPartialResult := by
  intro s t r hwf hreq hstep hresp
  obtain ⟨req, rest, hcons⟩ := List.exists_cons_of_ne_nil hreq
  rw [step_eq_perform hwf hcons] at hstep
  obtain ⟨res, -, rfl⟩ | ⟨f, -, rfl⟩ := perform_response_cases hstep hresp <;> simp

/-! ## Queues of admitted requests (R144) -/

/-- A request the spec gives a meaning: it is illegal, or it asks for an instruction that is not refused. -/
def RequestAdmitted (c : Config) (r : Request) : Prop :=
  headerIllegal r.header ∨ ∃ i, decode c r = .instr i ∧ refuses c i = false

theorem step_of_admitted {s : State} {r : Request} {rest : List Request} (hwf : s.cfg.wellFormed = true)
    (hreq : s.requests = r :: rest) (hadm : RequestAdmitted s.cfg r) :
    ∃ resp : Response, step s = .next { s with requests := rest, response := some resp } := by
  obtain hillegal | ⟨i, hd, hi⟩ := hadm
  · obtain ⟨why, hd⟩ := decode_of_illegal s.cfg ((headerIllegal_iff r).mp hillegal)
    exact ⟨_, step_illegal hwf hreq hd⟩
  · rw [step_instr hreq hd]
    exact exec_of_admitted (s := { s with requests := rest }) hwf hi

theorem run_succ_of_step {M : Host.Core} {n : Nat} {s u : M.State} (h : M.step s = .next u) :
    M.run (n + 1) s = M.run n u := by
  simp only [Host.Core.run, h]

/-- A response once on the port stays or is replaced, so at the end one stands there if one did at the start or if a
request was answered. -/
theorem run_of_admitted {s : State} (hwf : s.cfg.wellFormed = true)
    (hadm : ∀ r ∈ s.requests, RequestAdmitted s.cfg r) :
    ∃ t, Host.Core.run core s.requests.length s = .next t ∧
      (s.response ≠ none ∨ s.requests ≠ [] → t.response ≠ none) := by
  induction hq : s.requests generalizing s with
  | nil => exact ⟨s, rfl, by simp⟩
  | cons r rest ih =>
    rw [hq, List.forall_mem_cons] at hadm
    obtain ⟨hr, hrest⟩ := hadm
    obtain ⟨resp, hstep⟩ := step_of_admitted hwf hq hr
    obtain ⟨t, hrun, hresp⟩ := ih (s := { s with requests := rest, response := some resp }) hwf hrest rfl
    exact ⟨t, (run_succ_of_step (M := core) hstep).trans hrun, fun _ => hresp (.inl (Option.some_ne_none resp))⟩

/-- Settles O16: the run of the whole queue goes through, and what any run leaves of the port and of `CFG` is known. -/
theorem admittedQueuesAreAnsweredToTheEnd : Obligations.AdmittedQueuesAreAnsweredToTheEnd := by
  intro s hwf hadm
  obtain ⟨t, hrun, hresp⟩ := run_of_admitted hwf hadm
  exact ⟨t, hrun, by rw [run_requests hrun, List.drop_length], noRunChangesTheConfiguration _ s t hwf hrun,
    fun hne => hresp (.inr hne)⟩

/-! ## Every cell of R138 occurs -/

/-- The status an answer gives the response; none when the request is refused. -/
def Answer.status {α : Type} : Answer α → Option Status
  | .ok _ => some .ok
  | .raise f => some (.failed f)
  | .refuse _ => none

theorem exec_of_status {i : Instr} {s : State} {st : Status} (hwf : s.cfg.wellFormed = true)
    (h : (answerOf s.cfg i).status = some st) :
    ∃ (t : State) (r : Response), exec i s = .next t ∧ t.response = some r ∧ r.status = st := by
  rw [exec_eq_perform]
  cases hans : answerOf s.cfg i with
  | ok res =>
    rw [hans] at h
    exact ⟨_, _, perform_ok hwf res, rfl, Option.some.inj h⟩
  | raise f =>
    rw [hans] at h
    exact ⟨_, _, perform_raise hwf f, rfl, Option.some.inj h⟩
  | refuse q => rw [hans] at h; cases h

/-- An instruction for each cell of R138, row by row; those of `DECODE` are the code of S1 and V67, V69, V61. -/
def cellExamples : List (Instr × Status) :=
  [(.enc 1 0, .ok), (.enc 0 1, .failed .valueOutOfRange),
   (.encc 0, .ok),
   (.dec (ascii "Z"), .ok), (.dec (ascii "U"), .failed .decodeFailure),
   (.norm [], .ok),
   (.isvc 0x41, .ok),
   (.crc (ascii "1"), .ok), (.crc (ascii "U"), .failed .decodeFailure),
   (.append (ascii "1"), .ok), (.append (ascii "U"), .failed .decodeFailure),
   (.extract (ascii "AB"), .ok),
   (.strip (ascii "AB"), .ok),
   (.validate [], .ok),
   (.compose 12345 2025 12 25 100 500 999, .ok), (.compose 12345 2025 12 25 100 500 (-1), .failed .invalidInput),
   (.compose 0 3356 1 1 0 0 0, .failed .valueOutOfRange),
   (.decode (ascii "00C1SKA0JS034000FM00Z7D9"), .ok), (.decode (ascii "SHORT"), .failed .invalidLength),
   (.decode (ascii "00C1SKA0JS034000FM00Z709"), .failed .invalidChecksum),
   (.decode (ascii "00001K9ZKP002000030004GF"), .failed .invalidDate),
   (.format (ascii "012345678901234567890123"), .ok),
   (.rmdash [], .ok),
   (.isvf [], .ok),
   (.split (ascii "00C1SKA0JS034000FM00Z7D9"), .ok), (.split (ascii "SHORT"), .failed .invalidLength)]

theorem cellExamples_answered :
    ∀ e ∈ cellExamples, (answerOf Config.default e.1).status = some e.2 := by
  decide +kernel

theorem mem_opAll (op : Op) : op ∈ Op.all := List.mem_of_find?_eq_some (ofCode_code op)

theorem mem_statusAll (st : Status) : st ∈ Status.all := List.mem_of_find?_eq_some (statusOfCode_code st)

theorem cellExamples_cover :
    ∀ op ∈ Op.all, ∀ st ∈ Status.all, canAnswer op st = true → ∃ e ∈ cellExamples, e.1.op = op ∧ e.2 = st := by
  decide

/-- Settles O20: the examples cover the cells, and the model answers each with the status of its cell. -/
theorem everyCellOfTheMatrixOccurs : Obligations.EveryCellOfTheMatrixOccurs := by
  intro op st hcell
  obtain ⟨⟨i, _⟩, hmem, rfl, rfl⟩ := cellExamples_cover op (mem_opAll op) st (mem_statusAll st) hcell
  obtain ⟨t, r, hexec, hresp, hst⟩ := exec_of_status (s := State.reset) default_wellFormed (cellExamples_answered _ hmem)
  exact ⟨i, t, r, rfl, hexec, hresp, hst⟩

end Sys2Proof.Machine

/-! Settles the obligations of spec/70_reset_and_hazards.md: what the reset input leaves behind (R150), and that equivalent
spellings of a string are answered alike (R158). -/

namespace Sys2Proof.Machine

/-! ## The reset input (R150) -/

/-- The first request after the reset input stands alone on the port. -/
theorem issue_assertReset (s : State) (r : Request) :
    s.assertReset.issue r = { s with requests := [r], response := none } := rfl

/-- Settles O9: the reset input empties the two ports, and the request issued next makes the state of the statement. -/
theorem resetDropsWhatIsPendingAndNothingElse : Obligations.ResetDropsWhatIsPendingAndNothingElse :=
  fun s r _ => ⟨assertReset_requests s, assertReset_response s, assertReset_cfg s, congrArg step (issue_assertReset s r)⟩

/-! ## Equivalent spellings (R158) -/

/-- The seven operations that normalize their operand and answer on its normalization alone: on two strings each of them
does the same. -/
def AnsweredAlike (s : State) (x y : Str) : Prop :=
  exec (.decode x) s = exec (.decode y) s ∧ exec (.split x) s = exec (.split y) s ∧
    exec (.isvf x) s = exec (.isvf y) s ∧ exec (.validate x) s = exec (.validate y) s ∧
    exec (.dec x) s = exec (.dec y) s ∧ exec (.crc x) s = exec (.crc y) s ∧ exec (.norm x) s = exec (.norm y) s

theorem answeredAlike_of_normStr_eq {s : State} (hwf : s.cfg.wellFormed = true) {x y : Str}
    (h : normStr s.cfg x = normStr s.cfg y) : AnsweredAlike s x y := by
  simp only [AnsweredAlike, exec_decode hwf, exec_split hwf, exec_isvf hwf, exec_validate hwf, exec_dec hwf, exec_crc hwf,
    exec_norm hwf, h, and_self]

theorem normStr_eq_of_nchar_eq {c : Config} {ch ch' : Nat} (h : nchar c ch = nchar c ch') (pre post : Str) :
    normStr c (pre ++ ch :: post) = normStr c (pre ++ ch' :: post) := by
  rw [normStr_append, normStr_append, normStr_cons, normStr_cons, h]

theorem nchar_eq_of_upper_eq (c : Config) {ch ch' : Nat} (h : upper ch = upper ch') : nchar c ch = nchar c ch' := by
  rw [← nchar_upper, h, nchar_upper]

section
variable {c : Config} (hc : ConfigFacts c) {ch : Nat}
include hc

/-- R8 (e): upper-casing leaves a separator one. -/
theorem ConfigFacts.nchar_sep (h : ch ∈ c.separators) : nchar c ch = [] := by
  simp [nchar, upper_of_not_lower (hc.sepUpper ch h), h]

/-- R7: `CONFUSE` is a map, so no other entry answers for its key. -/
theorem ConfigFacts.remap_key {v : Nat} (h : (ch, v) ∈ c.confuse) : remap c ch = v := by
  unfold remap
  cases hl : c.confuse.lookup ch with
  | none => simpa using List.lookup_eq_none_iff.mp hl _ h
  | some u =>
    obtain ⟨l, r, hs, -⟩ := List.lookup_eq_some_iff.mp hl
    have hu : (ch, u) ∈ c.confuse := by simp [hs]
    exact congrArg Prod.snd (List.inj_on_of_nodup_map hc.keys hu h rfl)

/-- R8 (d): a confusable is neither a lower-case letter nor a separator, so it normalizes to its symbol. -/
theorem ConfigFacts.nchar_key {v : Nat} (h : (ch, v) ∈ c.confuse) : nchar c ch = [v] := by
  obtain ⟨-, hlower, hsep⟩ := hc.mapped _ h
  simp [nchar, upper_of_not_lower hlower, hsep, hc.remap_key h]

end

/-- Settles O58: each of the three changes keeps the normalization of the string. -/
theorem equivalentSpellingsAreAnsweredAlike : Obligations.EquivalentSpellingsAreAnsweredAlike := by
  intro s pre post ch ch' hwf
  have hc := (configFacts_iff s.cfg).mp hwf
  refine ⟨fun hsep => answeredAlike_of_normStr_eq hwf ?_,
    fun hcase => answeredAlike_of_normStr_eq hwf (normStr_eq_of_nchar_eq ?_ pre post),
    fun hconf => answeredAlike_of_normStr_eq hwf (normStr_eq_of_nchar_eq ?_ pre post)⟩
  · rw [normStr_append, normStr_append, normStr_cons, hc.nchar_sep hsep, List.nil_append]
  · exact nchar_eq_of_upper_eq s.cfg hcase
  · obtain ⟨hsym, -, -⟩ := hc.mapped _ hconf
    rw [hc.nchar_key hconf, hc.nchar_symbol hsym]

end Sys2Proof.Machine
